-- ==== Sys2Proof/Word.lean ====
section
/-! DEFINITION. The word types of ICLIB-CORE (00_scope.md rule R8: every value is an unsigned integer of a stated width). -/

namespace Sys2Proof

/-- A byte of the bus, of a buffer or of a PEC input (rule R8). -/
abbrev Byte := BitVec 8

/-- A command word, an operand word or a CSR (rules R30, R107). -/
abbrev Word := BitVec 32

/-- A result register or the VALUE of a descriptor (rules R21, R100). -/
abbrev DWord := BitVec 64

/-- A register of the PEC engine: bits PEC_W-1:0 are the register (10_state.md R27, R34, R35), those
above are 0. The widest PEC_W is 16 (00_scope.md R7 P1; log entry 2). -/
abbrev PecReg := BitVec 16

end Sys2Proof
end

