-- ==== Sys2Proof/Config.lean ====
section
/-! DEFINITION. What is fixed when the block is built (00_scope.md rule R7), and the values the spec leaves free. -/

namespace Sys2Proof

/-- One answer of the external Bus Transport to one `Transfer` (20_memory.md rules R66 and R67). -/
inductive TransportAnswer where
  /-- `ok(rx)`: any byte list of any length (R66). -/
  | ok (rx : List Byte)
  /-- `ioerror`, with no content (R66, R273). -/
  | ioerror
  /-- The transport never answers (R67). -/
  | never
  deriving DecidableEq, Repr, Inhabited

/-- The legal values of P1, PEC_W (rules R7, R181): a block of any other width cannot be
instantiated (93_implementation_defined.md U2). -/
abbrev PecWidth := { w : Nat // 2 ≤ w ∧ w ≤ 16 }

/-- P1 of a block that names no other: the default, 15 (rule R7, U2). -/
def Config.pecWDefault : PecWidth := ⟨15, by decide⟩

/-- The parameters of rule R7 that are arguments of the model (P1, P3, P4, P7, P8): the constants one
block was built with. -/
structure Params where
  /-- P1, PEC_W. -/
  pecW : PecWidth := Config.pecWDefault
  /-- P3, PEC_TAPS_RST. -/
  pecTapsRst : BitVec pecW.val
  /-- P4, QDEPTH. -/
  qdepth : Nat
  /-- P7, SUPPORTED_MODES: bit m set means bus mode m is supported. -/
  supportedModes : BitVec 4
  /-- P8, SPEED_MIN in Hz. -/
  speedMin : Nat
  /-- P8, SPEED_MAX in Hz. -/
  speedMax : Nat
  deriving DecidableEq, Repr

namespace Config

/-- P2, PEC_SEED_RST: bit index 4 set, taken modulo 2^PEC_W (rules R7, R181). -/
def pecSeedRst (w : PecWidth) : BitVec w.val := BitVec.ofNat w.val 0x0010

/-- P9, FILL. -/
def fill : Byte := 0xFF#8

/-- P10, EXTRA_FLAGS_DEFAULT. -/
def extraFlagsDefault : Word := 0#32

/-- P12, BITS_PER_WORD_REQ. -/
def bitsPerWordReq : BitVec 8 := 8#8

/-- The longest frame in bytes: format C with DLEN_MAX = 8 data bytes (rule R113). -/
def maxFrame : Nat := 14

/-- P3 of the block that `State.reset` stands for: OPEN (log entry 1). -/
opaque pecTapsRst : BitVec pecWDefault.val

/-- One less than P4 of that block: OPEN, QDEPTH from 1 to 65535 (log entry 1). -/
opaque qdepthLessOne : Fin 65535

/-- P7 of that block: OPEN (log entry 1). -/
opaque supportedModes : BitVec 4

/-- P8, lower bound, of that block: OPEN (log entry 1). -/
opaque speedMin : Nat

/-- P8, upper bound, of that block: OPEN (log entry 1). -/
opaque speedMax : Nat

/-- The parameters of the block that `State.reset` stands for: PEC_W has its default. -/
def params : Params :=
  { pecW := pecWDefault, pecTapsRst := pecTapsRst, qdepth := qdepthLessOne.val + 1,
    supportedModes := supportedModes, speedMin := speedMin, speedMax := speedMax }

/-- The free draw of rule R66: what XPORT answers, given every byte list sent so far, newest
first (log entry 3). -/
opaque xportAnswer : List (List Byte) → TransportAnswer

/-- What RXN holds when the answer's length does not fit 32 bits: a free value (log entry 10). -/
opaque rxnUnrepresentable : Nat → Word

end Config

end Sys2Proof
end

