-- ==== Sys2Proof/Syntax.lean ====
section
/-! DEFINITION. The instructions of ICLIB-CORE: the six frame operations and the eleven host commands of
spec/opcode_table.json, and the two forms in which their words are held (30_encoding.md). -/

namespace Sys2Proof

/-- The FMT field of a descriptor (30_encoding.md rule R100); 3 is reserved (R106). -/
inductive Fmt where
  | a
  | b
  | c
  deriving DecidableEq, Repr

/-- A stored descriptor: the 96-bit pair (DW0, DW1) (rule R100). -/
structure Descriptor where
  dw0 : Word
  dw1 : DWord
  deriving DecidableEq, Repr

/-- The fields of a descriptor (rule R100). -/
structure Frame where
  fmt : Fmt
  /-- RD: true for a ReadFrame. -/
  rd : Bool
  addr : BitVec 16
  dlen : BitVec 4
  value : DWord
  deriving DecidableEq, Repr

/-- A host command as it arrives at the command port: a command word, its operand words, its
operand bytes (rule R107; log entry 4). -/
structure Message where
  cw : Word
  words : List Word
  bytes : List Byte
  deriving DecidableEq, Repr

/-- The words of an instruction: a host message, or a descriptor of the queue. -/
inductive Code where
  | host (m : Message)
  | desc (d : Descriptor)
  deriving DecidableEq, Repr

/-- One constructor per row of spec/opcode_table.json. -/
inductive Instr where
  /-- RD.A (40_frame.md R130). -/
  | rdA (addr : BitVec 16) (dlen : BitVec 4) (value : DWord)
  /-- WR.A (R131). -/
  | wrA (addr : BitVec 16) (dlen : BitVec 4) (value : DWord)
  /-- RD.B (R132). -/
  | rdB (addr : BitVec 16) (dlen : BitVec 4) (value : DWord)
  /-- WR.B (R133). -/
  | wrB (addr : BitVec 16) (dlen : BitVec 4) (value : DWord)
  /-- RD.C (R134). -/
  | rdC (addr : BitVec 16) (dlen : BitVec 4) (value : DWord)
  /-- WR.C (R135). -/
  | wrC (addr : BitVec 16) (dlen : BitVec 4) (value : DWord)
  /-- RESET (43_host_control.md R240). -/
  | reset
  /-- CSR.RD (R241). -/
  | csrRd (k : BitVec 8)
  /-- CSR.WR (R242). -/
  | csrWr (k : BitVec 8) (v : Word)
  /-- INIT (R243). -/
  | init (buscfg maxSpeed extraFlags : Word)
  /-- ERR.CLR (R248). -/
  | errClr
  /-- DQ.PUSH (42_batcher.md R200). -/
  | dqPush (dw0 : Word) (dw1 : DWord)
  /-- DQ.CLR (R203). -/
  | dqClr
  /-- EXEC (R204). -/
  | exec
  /-- RES.RD (R217). -/
  | resRd (i : BitVec 16)
  /-- PEC.CALC (41_pec_engine.md R178). -/
  | pecCalc (l : List Byte)
  /-- PEC.CHK (R179). -/
  | pecChk (l : List Byte) (q0 q1 : Byte)
  deriving DecidableEq, Repr

/-- The frame operation that RD and FMT select (rule R101). -/
def Frame.instr (f : Frame) : Instr :=
  match f.fmt, f.rd with
  | .a, true => .rdA f.addr f.dlen f.value
  | .a, false => .wrA f.addr f.dlen f.value
  | .b, true => .rdB f.addr f.dlen f.value
  | .b, false => .wrB f.addr f.dlen f.value
  | .c, true => .rdC f.addr f.dlen f.value
  | .c, false => .wrC f.addr f.dlen f.value

end Sys2Proof
end

