-- ==== Sys2Proof/WellFormed.lean ====
section
/-! DEFINITION. Which instructions the encodings can express and the spec calls legal (30_encoding.md R103 to R105, R108). -/

namespace Sys2Proof

/-- ADDR range for the format (rule R103). -/
def addrOk (fmt : Fmt) (addr : BitVec 16) : Bool :=
  match fmt with
  | .a => decide (addr.toNat < 64)
  | .b => decide (addr.toNat < 256)
  | .c => true

/-- DLEN range (rule R104). -/
def dlenOk (dlen : BitVec 4) : Bool := decide (1 ≤ dlen.toNat ∧ dlen.toNat ≤ 8)

/-- VALUE range of a write (rule R105). -/
def valueOk (dlen : BitVec 4) (value : DWord) : Bool := decide (value.toNat < 2 ^ (8 * dlen.toNat))

/-- Legality of a descriptor's fields (rule R102; R106 is the decoder's). A read's VALUE is ignored (R105). -/
def Frame.legal (f : Frame) : Bool :=
  addrOk f.fmt f.addr && dlenOk f.dlen && (f.rd || valueOk f.dlen f.value)

/-- The instructions that have words: a frame operation is a legal frame, and the byte list of
PEC.CALC and PEC.CHK has a length that LEN can say (rule R108). -/
def Instr.WellFormed (i : Instr) : Bool :=
  match i with
  | .rdA a n v => Frame.legal ⟨.a, true, a, n, v⟩
  | .wrA a n v => Frame.legal ⟨.a, false, a, n, v⟩
  | .rdB a n v => Frame.legal ⟨.b, true, a, n, v⟩
  | .wrB a n v => Frame.legal ⟨.b, false, a, n, v⟩
  | .rdC a n v => Frame.legal ⟨.c, true, a, n, v⟩
  | .wrC a n v => Frame.legal ⟨.c, false, a, n, v⟩
  | .reset => true
  | .csrRd _ => true
  | .csrWr _ _ => true
  | .init _ _ _ => true
  | .errClr => true
  | .dqPush _ _ => true
  | .dqClr => true
  | .exec => true
  | .resRd _ => true
  | .pecCalc l => decide (l.length < 65536)
  | .pecChk l _ _ => decide (l.length < 65536)

end Sys2Proof
end

