-- ==== Sys2Proof/Decode.lean ====
section
/-! DEFINITION. From words to instructions and back (30_encoding.md): the decoder of descriptors and host messages, the
encoder written from the same tables, and the reading of an opcode-table word. -/

namespace Sys2Proof

/-- Why words are no instruction. The first two are ILLEGAL CMD (rule R110), the last five ILLEGAL
DESC (rule R201); `operandCount` is a message whose operands are not those of rule R108. -/
inductive DecodeError where
  | unknownOp
  | unusedField
  | operandCount
  | reservedBits
  | reservedFmt
  | dlenRange
  | addrRange
  | valueRange
  deriving DecidableEq, Repr

/-! ### Descriptors (rules R100 to R106) -/

/-- FMT (rule R100); 3 is reserved (R106). -/
def fmtOf (f : BitVec 2) : Option Fmt :=
  if f = 0#2 then some .a
  else if f = 1#2 then some .b
  else if f = 2#2 then some .c
  else none

/-- The number of a format (rule R100). -/
def Fmt.code (f : Fmt) : BitVec 2 :=
  match f with
  | .a => 0#2
  | .b => 1#2
  | .c => 2#2

/-- DW0 bits 31:24 and bit 7 must be 0 (rule R106). -/
def reservedSet (dw0 : Word) : Bool := dw0.extractLsb' 24 8 != 0#8 || dw0.extractLsb' 7 1 != 0#1

/-- The address bits a format has no room for (rule R103). -/
def addrTooWide (fmt : Fmt) (addr : BitVec 16) : Bool :=
  match fmt with
  | .a => addr.extractLsb' 6 10 != 0#10
  | .b => addr.extractLsb' 8 8 != 0#8
  | .c => false

/-- DLEN 0 and 9 to 15 are illegal (rule R104). -/
def dlenIllegal (dlen : BitVec 4) : Bool := dlen == 0#4 || 8#4 < dlen

/-- VALUE has a bit at or above 8·DLEN (rule R105). -/
def valueTooWide (dlen : BitVec 4) (value : DWord) : Bool := value >>> (8 * dlen.toNat) != 0#64

/-- The fields of a legal descriptor, checked in the order of rule R201. -/
def decodeFrame (d : Descriptor) : Except DecodeError Frame :=
  let rd := d.dw0.getLsbD 0
  let dlen := d.dw0.extractLsb' 3 4
  let addr := d.dw0.extractLsb' 8 16
  if reservedSet d.dw0 then .error .reservedBits
  else match fmtOf (d.dw0.extractLsb' 1 2) with
    | none => .error .reservedFmt
    | some fmt =>
      if dlenIllegal dlen then .error .dlenRange
      else if addrTooWide fmt addr then .error .addrRange
      else if !rd && valueTooWide dlen d.dw1 then .error .valueRange
      else .ok { fmt := fmt, rd := rd, addr := addr, dlen := dlen, value := d.dw1 }

/-- The stored form of a frame (rule R100). -/
def Frame.descriptor (f : Frame) : Descriptor :=
  { dw0 := 0#8 ++ f.addr ++ 0#1 ++ f.dlen ++ f.fmt.code ++ BitVec.ofBool f.rd, dw1 := f.value }

/-! ### Host messages (rules R107 to R110) -/

/-- The listed OP values of rule R108. -/
inductive HostOp where
  | reset
  | csrRd
  | csrWr
  | init
  | errClr
  | dqPush
  | dqClr
  | exec
  | resRd
  | pecCalc
  | pecChk
  deriving DecidableEq, Repr

/-- The OP column of rule R108. -/
def HostOp.code (o : HostOp) : BitVec 8 :=
  match o with
  | .reset => 0x01#8
  | .csrRd => 0x02#8
  | .csrWr => 0x03#8
  | .init => 0x04#8
  | .errClr => 0x05#8
  | .dqPush => 0x10#8
  | .dqClr => 0x11#8
  | .exec => 0x12#8
  | .resRd => 0x13#8
  | .pecCalc => 0x20#8
  | .pecChk => 0x21#8

/-- Every row of rule R108. -/
def hostOps : List HostOp :=
  [.reset, .csrRd, .csrWr, .init, .errClr, .dqPush, .dqClr, .exec, .resRd, .pecCalc, .pecChk]

/-- The row of rule R108 that an OP value names; none where it is not listed (R110). -/
def hostOpOf (op : BitVec 8) : Option HostOp := hostOps.find? (fun o => o.code == op)

/-- The ARG8 column of rule R108: whether the command uses the field. -/
def HostOp.usesArg8 (o : HostOp) : Bool := o == .csrRd || o == .csrWr

/-- The ARG16 column of rule R108: whether the command uses the field. -/
def HostOp.usesArg16 (o : HostOp) : Bool := o == .resRd || o == .pecCalc || o == .pecChk

/-- A command word has a nonzero field that its command does not use (rules R107, R110). -/
def unusedFieldSet (o : HostOp) (cw : Word) : Bool :=
  (!o.usesArg8 && cw.extractLsb' 8 8 != 0#8) || (!o.usesArg16 && cw.extractLsb' 16 16 != 0#16)

/-- A command whose operands are exactly `n` words and no bytes (rule R108). -/
def wordOperands (n : Nat) (words : List Word) (bytes : List Byte) (i : Instr) :
    Except DecodeError Instr :=
  if words.length = n ∧ bytes = [] then .ok i else .error .operandCount

/-- Operand word `k`, by position (rule R108). -/
def operandWord (words : List Word) (k : Nat) : Word := words.getD k 0#32

/-- A command whose operands are no words and exactly `n` bytes (rule R108). -/
def byteOperands (n : Nat) (words : List Word) (bytes : List Byte) (i : Instr) :
    Except DecodeError Instr :=
  if words = [] ∧ bytes.length = n then .ok i else .error .operandCount

/-- The operands of a command (rule R108), its fields ARG8 and ARG16 already taken out. -/
def takeOperands (o : HostOp) (arg8 : BitVec 8) (arg16 : BitVec 16) (words : List Word)
    (bytes : List Byte) : Except DecodeError Instr :=
  match o with
  | .reset => wordOperands 0 words bytes .reset
  | .csrRd => wordOperands 0 words bytes (.csrRd arg8)
  | .csrWr => wordOperands 1 words bytes (.csrWr arg8 (operandWord words 0))
  | .init =>
    wordOperands 3 words bytes
      (.init (operandWord words 0) (operandWord words 1) (operandWord words 2))
  | .errClr => wordOperands 0 words bytes .errClr
  | .dqPush =>
    wordOperands 3 words bytes
      (.dqPush (operandWord words 0) (operandWord words 2 ++ operandWord words 1))
  | .dqClr => wordOperands 0 words bytes .dqClr
  | .exec => wordOperands 0 words bytes .exec
  | .resRd => wordOperands 0 words bytes (.resRd arg16)
  | .pecCalc => byteOperands arg16.toNat words bytes (.pecCalc bytes)
  | .pecChk =>
    byteOperands (arg16.toNat + 2) words bytes
      (.pecChk (bytes.take arg16.toNat) (bytes.getD arg16.toNat 0#8)
        (bytes.getD (arg16.toNat + 1) 0#8))

/-- The host command of a message: OP, then the unused fields, then the operands (rules R250, R108). -/
def decodeMessage (m : Message) : Except DecodeError Instr :=
  match hostOpOf (m.cw.extractLsb' 0 8) with
  | none => .error .unknownOp
  | some o =>
    if unusedFieldSet o m.cw then .error .unusedField
    else takeOperands o (m.cw.extractLsb' 8 8) (m.cw.extractLsb' 16 16) m.words m.bytes

/-- The instruction that words are, or why they are none. -/
def decode (c : Code) : Except DecodeError Instr :=
  match c with
  | .host m => decodeMessage m
  | .desc d =>
    match decodeFrame d with
    | .ok f => .ok f.instr
    | .error e => .error e

/-- A command word (rule R107). -/
def commandWord (o : HostOp) (arg8 : BitVec 8) (arg16 : BitVec 16) : Word := arg16 ++ arg8 ++ o.code

/-- A message of a command word and operand words. -/
def wordMessage (o : HostOp) (arg8 : BitVec 8) (arg16 : BitVec 16) (words : List Word) : Code :=
  .host { cw := commandWord o arg8 arg16, words := words, bytes := [] }

/-- A message of a command word with LEN = `len` and operand bytes. -/
def byteMessage (o : HostOp) (len : Nat) (bytes : List Byte) : Code :=
  .host { cw := commandWord o 0#8 (BitVec.ofNat 16 len), words := [], bytes := bytes }

/-- The words of an instruction (rules R100, R108). -/
def encode (i : Instr) : Code :=
  match i with
  | .rdA a n v => .desc (Frame.descriptor ⟨.a, true, a, n, v⟩)
  | .wrA a n v => .desc (Frame.descriptor ⟨.a, false, a, n, v⟩)
  | .rdB a n v => .desc (Frame.descriptor ⟨.b, true, a, n, v⟩)
  | .wrB a n v => .desc (Frame.descriptor ⟨.b, false, a, n, v⟩)
  | .rdC a n v => .desc (Frame.descriptor ⟨.c, true, a, n, v⟩)
  | .wrC a n v => .desc (Frame.descriptor ⟨.c, false, a, n, v⟩)
  | .reset => wordMessage .reset 0#8 0#16 []
  | .csrRd k => wordMessage .csrRd k 0#16 []
  | .csrWr k v => wordMessage .csrWr k 0#16 [v]
  | .init buscfg maxSpeed extraFlags => wordMessage .init 0#8 0#16 [buscfg, maxSpeed, extraFlags]
  | .errClr => wordMessage .errClr 0#8 0#16 []
  | .dqPush dw0 dw1 =>
    wordMessage .dqPush 0#8 0#16 [dw0, dw1.extractLsb' 0 32, dw1.extractLsb' 32 32]
  | .dqClr => wordMessage .dqClr 0#8 0#16 []
  | .exec => wordMessage .exec 0#8 0#16 []
  | .resRd i => wordMessage .resRd 0#8 i []
  | .pecCalc l => byteMessage .pecCalc l.length l
  | .pecChk l q0 q1 => byteMessage .pecChk l.length (l ++ [q0, q1])

/-! ### Words of the opcode table -/

/-- How many operand words follow a command word (rule R108). -/
def HostOp.wordCount (o : HostOp) : Nat :=
  match o with
  | .csrWr => 1
  | .init => 3
  | .dqPush => 3
  | .reset | .csrRd | .errClr | .dqClr | .exec | .resRd | .pecCalc | .pecChk => 0

/-- How many operand bytes follow a command word with LEN = `len` (rule R108). -/
def HostOp.byteCount (o : HostOp) (len : Nat) : Nat :=
  match o with
  | .pecCalc => len
  | .pecChk => len + 2
  | .reset | .csrRd | .csrWr | .init | .errClr | .dqPush | .dqClr | .exec | .resRd => 0

/-- The message whose bits are the low `nbits` of `w`, the command word first and each operand
counting on from it; operand bits above `nbits` are 0. -/
def tableMessage (nbits w : Nat) : Message :=
  let bits := w % 2 ^ nbits
  let cw := BitVec.ofNat 32 bits
  match hostOpOf (cw.extractLsb' 0 8) with
  | none => { cw := cw, words := [], bytes := [] }
  | some o =>
    { cw := cw
      words := (List.range o.wordCount).map (fun j => BitVec.ofNat 32 (bits >>> (32 * (j + 1))))
      bytes := (List.range (o.byteCount (cw.extractLsb' 16 16).toNat)).map
        (fun j => BitVec.ofNat 8 (bits >>> (32 + 8 * j))) }

/-- The descriptor whose bits are the low `nbits` of `w`: DW0 first, DW1 counting on from it. -/
def tableDescriptor (nbits w : Nat) : Descriptor :=
  let bits := w % 2 ^ nbits
  { dw0 := BitVec.ofNat 32 bits, dw1 := BitVec.ofNat 64 (bits >>> 32) }

/-- Where an opcode-table word is read: at the command port if it is a host command, else in the
queue if it is a legal descriptor (log entry 7: the two kinds of word overlap). -/
def tableCode (nbits w : Nat) : Code :=
  match decodeMessage (tableMessage nbits w) with
  | .ok _ => .host (tableMessage nbits w)
  | .error _ =>
    match decodeFrame (tableDescriptor nbits w) with
    | .ok _ => .desc (tableDescriptor nbits w)
    | .error _ => .host (tableMessage nbits w)

/-- The instruction the decoder reads from an opcode-table word. -/
def decodeTableWord (nbits w : Nat) : Option Instr :=
  match decode (tableCode nbits w) with
  | .ok i => some i
  | .error _ => none

end Sys2Proof
end

