-- ==== Sys2Proof/Machine/State.lean ====
section
/-! DEFINITION. The state of ICLIB-CORE (10_state.md), its reset value, and the reasons a step can stop. -/

namespace Sys2Proof.Machine

/-- Why the machine stops. None of these is an error of the spec (those are next states, R286): each
lies in states that no run reaches from reset, so each is safe (log entry 12). -/
inductive Fault where
  /-- A frame operation in the encode walk: its bytes would lie past BUFMAX, an address TXB does not
  have (R29, R60). Safe: with a legal queue of at most QDEPTH entries it cannot arise (R25). -/
  | bufferOverrun
  /-- A frame operation in the parse walk: its index is past QDEPTH, a register RES does not have
  (R21). Safe: FP stays below QDEPTH there (R24). -/
  | noSuchResult
  /-- EXEC, or a step inside EXEC: a queued descriptor is illegal. Safe: DQ.PUSH refuses it (R28, R201). -/
  | illegalDescriptor
  deriving DecidableEq, Repr

/-- Why something presented to the machine has no meaning in the model. -/
inductive Refusal where
  /-- `exec`: an instruction that has no meaning yet. Safe. No arm uses it now. -/
  | notModelled (mnemonic : String)
  /-- `step`: a host message whose operands are not those rule R108 gives its command word; the
  spec gives such a message no meaning. Safe (log entry 6). -/
  | operandCount
  /-- A frame operation outside EXEC: 40_frame.md says that it is "not issued by the host
  directly". `step` never issues one there. Safe (log entry 8). -/
  | frameOutsideExec
  deriving DecidableEq, Repr

/-- A byte buffer: its bytes that hold a value, by rising offset. A byte that is not listed holds
no value (R47). -/
abbrev Memory := List Host.Cell

/-- The canonical form of a buffer: offsets strictly rise. An unlisted byte reads as no value, so no
listed byte equals what an unlisted one reads as. -/
abbrev Memory.wf (m : Memory) : Prop := m.Pairwise (fun c d => c.1 < d.1)

/-- Where inside EXEC the machine stands (R204; log entry 5). -/
inductive Phase where
  /-- No command is in progress. -/
  | idle
  /-- The encode walk (R206). -/
  | encode
  /-- A transfer that XPORT has not answered (R67). -/
  | transfer
  /-- The parse walk (R210). -/
  | parse
  deriving DecidableEq, Repr

/-- The errors of 60_exceptions.md rules R274 and R275, one per pair (ERR, ESUB). -/
inductive ErrorKind where
  | configMode
  | configSpeed
  | configBitOrder
  | configWordSize
  | framingLen
  | framingEcho
  | pecMismatch
  | transportIo
  | illegalCmd
  | illegalDesc
  | illegalCsrNum
  | stateNotReady
  | stateLocked
  | stateReadOnly
  | stateQueueFull
  | stateNoResult
  | stateAlready
  deriving DecidableEq, Repr

/-- The payload of a response (30_encoding.md R108, R111). -/
inductive Payload where
  | empty
  | word (v : Word)
  | result (v : DWord)
  | pecField (p0 p1 : Byte)
  deriving DecidableEq, Repr

/-- The one response to a command (R111). -/
structure Response where
  err : BitVec 4
  esub : BitVec 4
  payload : Payload
  deriving DecidableEq, Repr

/-- What the outside presents next: a host message (R107) or a hardware reset (R310). -/
inductive HostInput where
  | command (m : Message)
  | hardwareReset
  deriving DecidableEq, Repr

/-- The command port: what will arrive, oldest first, and the response to the last command. The
model's own field (log entry 4). -/
structure HostPort where
  pending : List HostInput
  response : Option Response
  deriving DecidableEq, Repr

/-- The port to XPORT: answers already fixed, and every byte list sent, newest first. The model's
own field (log entry 3). -/
structure BusPort where
  script : List TransportAnswer
  sent : List (List Byte)
  deriving DecidableEq, Repr

/-- The state of ICLIB-CORE (10_state.md rule R20), then the model's own fields. -/
structure State where
  /-- RES: the result registers that hold a value, RES[0] first; RESN is their number (R21, R22). -/
  res : List DWord
  /-- FP, CSR 1 (R24). -/
  fp : BitVec 16
  /-- OFS (R25). -/
  ofs : BitVec 32
  /-- STATUS.READY (R31). -/
  ready : Bool
  /-- STATUS.DONE (R31). -/
  done : Bool
  /-- STATUS.WARN (R31). -/
  warn : Bool
  /-- STATUS.ERR (R31). -/
  err : BitVec 4
  /-- STATUS.ESUB (R31). -/
  esub : BitVec 4
  /-- CTRL.ECHO_CHK (R33). -/
  echoChk : Bool
  /-- PEC_SEED, CSR 3 (R34). -/
  pecSeed : PecReg
  /-- PEC_TAPS, CSR 4, with bit 0 set (R35). -/
  pecTaps : PecReg
  /-- BUSFMT.OPC (R36). -/
  opc : BitVec 4
  /-- BUSFMT.HWADDR (R36). -/
  hwaddr : BitVec 3
  /-- DQ: the queued descriptors, DQ[0] first; DQN is their number (R28). -/
  dq : List Descriptor
  /-- TXB (R29, R61). -/
  txb : Memory
  /-- TXN, CSR 8 (R39). -/
  txn : BitVec 32
  /-- RXB (R29, R62). -/
  rxb : Memory
  /-- RXN, CSR 9 (R40). -/
  rxn : BitVec 32
  /-- PECR, CSR 10 (R27). -/
  pecr : PecReg
  /-- The model's own: where inside EXEC the machine stands (log entry 5). -/
  phase : Phase
  /-- The model's own: the parameters of this block, written by nothing (log entry 1). -/
  params : Params
  /-- The model's own: the command port (log entry 4). -/
  host : HostPort
  /-- The model's own: the port to XPORT (log entry 3). -/
  bus : BusPort
  deriving DecidableEq, Repr

/-- The reset values of rule R46, for a block with parameters `p`, nothing presented to it. -/
def State.resetWith (p : Params) : State :=
  { res := [], fp := 0#16, ofs := 0#32
    ready := false, done := false, warn := false, err := 0#4, esub := 0#4
    echoChk := false
    pecSeed := (Config.pecSeedRst p.pecW).setWidth 16
    pecTaps := (p.pecTapsRst ||| 1#p.pecW.val).setWidth 16
    opc := 0#4, hwaddr := 0#3
    dq := [], txb := [], txn := 0#32, rxb := [], rxn := 0#32
    pecr := (Config.pecSeedRst p.pecW).setWidth 16
    phase := .idle, params := p
    host := { pending := [], response := none }
    bus := { script := [], sent := [] } }

/-- The machine right after reset (rules R46, R310, R311). -/
def State.reset : State := State.resetWith Config.params

/-- What an instruction or a step answers. -/
abbrev Result := Host.Outcome State Fault Refusal

end Sys2Proof.Machine
end

