-- ==== Sys2Proof/Machine/Flags.lean ====
section
/-! DEFINITION. The flags: STATUS as a word, the error codes, and the conditions that checks read (10_state.md R26, R31;
60_exceptions.md R274, R275). -/

namespace Sys2Proof.Machine

/-- The ERR code (R274). -/
def ErrorKind.code (e : ErrorKind) : BitVec 4 :=
  match e with
  | .configMode | .configSpeed | .configBitOrder | .configWordSize => 1#4
  | .framingLen | .framingEcho => 2#4
  | .pecMismatch => 3#4
  | .transportIo => 4#4
  | .illegalCmd | .illegalDesc | .illegalCsrNum => 5#4
  | .stateNotReady | .stateLocked | .stateReadOnly | .stateQueueFull | .stateNoResult
  | .stateAlready => 6#4

/-- The ESUB subcode (R275). -/
def ErrorKind.sub (e : ErrorKind) : BitVec 4 :=
  match e with
  | .configMode => 1#4
  | .configSpeed => 2#4
  | .configBitOrder => 3#4
  | .configWordSize => 4#4
  | .framingLen => 1#4
  | .framingEcho => 2#4
  | .pecMismatch => 0#4
  | .transportIo => 0#4
  | .illegalCmd => 1#4
  | .illegalDesc => 2#4
  | .illegalCsrNum => 3#4
  | .stateNotReady => 1#4
  | .stateLocked => 2#4
  | .stateReadOnly => 3#4
  | .stateQueueFull => 4#4
  | .stateNoResult => 5#4
  | .stateAlready => 6#4

/-- STATUS as CSR 0 (R31): READY bit 0, DONE bit 1, WARN bit 2, ERR bits 7:4, ESUB bits 11:8. -/
def State.statusWord (s : State) : Word :=
  0#20 ++ s.esub ++ s.err ++ 0#1 ++ BitVec.ofBool s.warn ++ BitVec.ofBool s.done ++ BitVec.ofBool s.ready

/-- A header echo byte of a slice is not 0x00 (40_frame.md R146). -/
def echoNonzero (hlen : Nat) (slice : List Byte) : Bool := (slice.take hlen).any (fun b => b != 0#8)

/-- A reserved bit of BUSCFG is set (30_encoding.md R109). -/
def buscfgReservedSet (buscfg : Word) : Bool :=
  buscfg.extractLsb' 16 16 != 0#16 || buscfg.extractLsb' 3 5 != 0#5

/-- Check 1 of INIT (43_host_control.md R245): bit BUSCFG.MODE of SUPPORTED_MODES. -/
def modeSupported (p : Params) (buscfg : Word) : Bool :=
  p.supportedModes.getLsbD (buscfg.extractLsb' 0 2).toNat

/-- Check 2 of INIT (R245): both bounds included. -/
def speedSupported (p : Params) (maxSpeed : Word) : Bool :=
  decide (p.speedMin ≤ maxSpeed.toNat) && decide (maxSpeed.toNat ≤ p.speedMax)

/-- BUSCFG.LSB_FIRST (R109). -/
def lsbFirst (buscfg : Word) : Bool := buscfg.getLsbD 2

/-- Check 4 of INIT (R245). -/
def wordSizeOk (buscfg : Word) : Bool := buscfg.extractLsb' 8 8 == Config.bitsPerWordReq

end Sys2Proof.Machine
end

