-- ==== Sys2Proof/Machine/Pec.lean ====
section
/-! DEFINITION. The PEC engine's internal operations (41_pec_engine.md R171 to R176), for every width W. -/

namespace Sys2Proof.Machine

/-- SHIFT (R172): the vector moves one place toward the top bit; the feedback bit, the input bit
XOR the top bit, goes into every position that `taps` sets. -/
def pecShift {w : Nat} (taps r : BitVec w) (din : Bool) : BitVec w :=
  if din ^^ r.msb then (r <<< 1) ^^^ taps else r <<< 1

/-- BYTE (R173): bit 7 first. -/
def pecByte {w : Nat} (taps r : BitVec w) (b : Byte) : BitVec w :=
  [7, 6, 5, 4, 3, 2, 1, 0].foldl (fun v k => pecShift taps v (b.getLsbD k)) r

/-- SEED and then BYTE for every byte: `pec(l)` (R171, R175). -/
def pec {w : Nat} (seed taps : BitVec w) (l : List Byte) : BitVec w := l.foldl (pecByte taps) seed

/-- The vector left-aligned in 16 bits (R176). -/
def pecAligned {w : Nat} (v : BitVec w) : BitVec 16 := v.setWidth 16 <<< (16 - w)

/-- P0 (R176). -/
def pecHigh {w : Nat} (v : BitVec w) : Byte := (pecAligned v).extractLsb' 8 8

/-- P1 (R176). -/
def pecLow {w : Nat} (v : BitVec w) : Byte := (pecAligned v).extractLsb' 0 8

/-- OUT (R176): P0 and then P1. -/
def pecOut {w : Nat} (v : BitVec w) : List Byte := [pecHigh v, pecLow v]

/-- PEC_W of the block (R181). -/
abbrev State.pecW (s : State) : Nat := s.params.pecW.val

/-- The vector that a register of the engine holds. -/
def State.vectorIn (s : State) (r : PecReg) : BitVec s.pecW := r.setWidth s.pecW

/-- A vector in a register of the engine. -/
def holdVector {w : Nat} (v : BitVec w) : PecReg := v.setWidth 16

/-- `pec(l)` with the machine's PEC_SEED and PEC_TAPS (R175). -/
def State.pecVector (s : State) (l : List Byte) : BitVec s.pecW :=
  pec (s.vectorIn s.pecSeed) (s.vectorIn s.pecTaps) l

/-- What a computation over `l` leaves in PECR (R41, R175). -/
def State.pecOf (s : State) (l : List Byte) : PecReg := holdVector (s.pecVector l)

/-- `pec_bytes(l)` (R176). -/
def State.pecBytes (s : State) (l : List Byte) : List Byte := pecOut (s.pecVector l)

end Sys2Proof.Machine
end

