-- ==== Sys2Proof/Machine/Operands.lean ====
section
/-! DEFINITION. What a frame sends and how a value is assembled (30_encoding.md R90 to R97, R113; 40_frame.md R137 to R144). -/

namespace Sys2Proof.Machine

/-- Header length (R90). -/
def hlen (f : Fmt) : Nat :=
  match f with
  | .a => 1
  | .b => 2
  | .c => 4

/-- Tail length (R90). -/
def tlen (f : Fmt) : Nat :=
  match f with
  | .a => 0
  | .b => 0
  | .c => 2

/-- `count(d)` (R113, R141). -/
def frameCount (f : Frame) : Nat := hlen f.fmt + f.dlen.toNat + tlen f.fmt

/-- `FILL^n` (R8, R97). -/
def fillBytes (n : Nat) : List Byte := List.replicate n Config.fill

/-- `bytes_be(v, n)` (R139): the most significant byte first. -/
def bytesBe (v : DWord) (n : Nat) : List Byte :=
  (List.range n).map (fun k => (v >>> (8 * (n - 1 - k))).setWidth 8)

/-- `be(l)` (R144), in a 64-bit accumulator. -/
def be (l : List Byte) : DWord := l.foldl (fun acc b => (acc <<< 8) ||| b.setWidth 64) 0#64

/-- The format A control byte (R92): the address in bits 7:2, bit 1 clear, the read flag in bit 0. -/
def controlByteA (addr : BitVec 16) (rd : Bool) : Byte :=
  addr.extractLsb' 0 6 ++ 0#1 ++ BitVec.ofBool rd

/-- The format B control byte (R94): OPC, HWADDR, the read flag. -/
def controlByteB (s : State) (rd : Bool) : Byte := s.opc ++ s.hwaddr ++ BitVec.ofBool rd

/-- The address byte of format B (R95). -/
def addressByte (addr : BitVec 16) : Byte := addr.extractLsb' 0 8

/-- The two command bytes of format C (R96). -/
def commandBytes (addr : BitVec 16) : List Byte := [addr.extractLsb' 8 8, addr.extractLsb' 0 8]

/-- The format A header (R93, R137). -/
def headerA (addr : BitVec 16) (rd : Bool) : List Byte := [controlByteA addr rd]

/-- The format B header (R95, R137). -/
def headerB (s : State) (addr : BitVec 16) (rd : Bool) : List Byte :=
  [controlByteB s rd, addressByte addr]

/-- The format C header (R96, R137): the command bytes and their PEC. -/
def headerC (s : State) (addr : BitVec 16) : List Byte :=
  commandBytes addr ++ s.pecBytes (commandBytes addr)

/-- The tail of a format C write (R140): the PEC of its data. -/
def writeTail (s : State) (dat : List Byte) : List Byte := s.pecBytes dat

end Sys2Proof.Machine
end

