-- ==== Sys2Proof/Machine/Ops.lean ====
section
/-! DEFINITION. The named operations over buffers, registers, errors and the transport that the meanings share. -/

namespace Sys2Proof.Machine

/-! ### Buffers (20_memory.md R60 to R62) -/

/-- One byte of a buffer; none where the byte holds no value (R47). -/
def Memory.byte (m : Memory) (a : Nat) : Option Byte := m.lookup a

/-- The cells of a byte list that starts at offset `a`. -/
def Memory.cells (a : Nat) (l : List Byte) : Memory :=
  match l with
  | [] => []
  | b :: bs => (a, b) :: Memory.cells (a + 1) bs

/-- `MemWrite(a, n, v)` with n = len(v) (R9, R61). -/
def memWrite (m : Memory) (a : Nat) (v : List Byte) : Memory :=
  m.filter (fun c => decide (c.1 < a)) ++ Memory.cells a v
    ++ m.filter (fun c => decide (a + v.length ≤ c.1))

/-- `MemRead(a, n)` (R9, R62): the bytes that hold a value among the `n` from offset `a`. -/
def memRead (m : Memory) (a n : Nat) : List Byte := (List.range n).filterMap (fun k => m.byte (a + k))

/-- BUFMAX (00_scope.md R7 P5). -/
def bufmax (p : Params) : Nat := Config.maxFrame * p.qdepth

/-! ### Responses and error entry (30_encoding.md R111, 60_exceptions.md R286) -/

/-- Answer the command with success; STATUS keeps its error record (R26). -/
def respond (p : Payload) (s : State) : State :=
  { s with host := { s.host with response := some { err := 0#4, esub := 0#4, payload := p } } }

/-- Error entry, `raise E` (R286): record the code and subcode, and answer with them. -/
def raise (e : ErrorKind) (s : State) : State :=
  { s with
    err := e.code
    esub := e.sub
    host := { s.host with response := some { err := e.code, esub := e.sub, payload := .empty } } }

/-- The abort of EXEC (R204, R286): no result, DONE clear, the queue empty, then the error entry.
FP is what the caller left. -/
def abort (e : ErrorKind) (s : State) : State :=
  raise e { s with res := [], done := false, dq := [], phase := .idle }

/-! ### Control and status registers (10_state.md R30 to R43) -/

/-- RESN (R22). -/
def State.resn (s : State) : BitVec 16 := BitVec.ofNat 16 s.res.length

/-- DQN (R28). -/
def State.dqn (s : State) : BitVec 16 := BitVec.ofNat 16 s.dq.length

/-- CSR[k] (R31 to R41); none for a number that is not implemented (R42). -/
def csrRead (s : State) (k : BitVec 8) : Option Word :=
  match k.toNat with
  | 0 => some s.statusWord
  | 1 => some (s.fp.setWidth 32)
  | 2 => some ((BitVec.ofBool s.echoChk).setWidth 32)
  | 3 => some ((s.vectorIn s.pecSeed).setWidth 32)
  | 4 => some ((s.vectorIn s.pecTaps).setWidth 32)
  | 5 => some (0#24 ++ s.opc ++ s.hwaddr ++ 0#1)
  | 6 => some (s.dqn.setWidth 32)
  | 7 => some (s.resn.setWidth 32)
  | 8 => some s.txn
  | 9 => some s.rxn
  | 10 => some ((s.vectorIn s.pecr).setWidth 32)
  | _ => none

/-- The registers CSR.WR may write (R242): CSR 2 to 5. -/
def csrWritable (k : BitVec 8) : Bool := decide (2 ≤ k.toNat ∧ k.toNat ≤ 5)

/-- The write of a writable register (R242): reserved bits are ignored, bit 0 of PEC_TAPS stays 1. -/
def csrWrite (s : State) (k : BitVec 8) (v : Word) : State :=
  match k.toNat with
  | 2 => { s with echoChk := v.getLsbD 0 }
  | 3 => { s with pecSeed := holdVector (v.setWidth s.pecW) }
  | 4 => { s with pecTaps := holdVector (v.setWidth s.pecW ||| 1#s.pecW) }
  | 5 => { s with opc := v.extractLsb' 4 4, hwaddr := v.extractLsb' 1 3 }
  | _ => s

/-! ### Reset (R46, R310) -/

/-- Every piece of the block's state at its reset value. What is outside the block stays: its
parameters and the two ports. -/
def toReset (s : State) : State :=
  { State.resetWith s.params with host := s.host, bus := s.bus }

/-- The inputs with the first hardware reset among them taken out; none where none is among them. -/
def withoutReset (inputs : List HostInput) : Option (List HostInput) :=
  match inputs with
  | [] => none
  | .hardwareReset :: rest => some rest
  | .command m :: rest => (withoutReset rest).map (fun l => .command m :: l)

/-- The inputs that stay when a hardware reset lands now; none where none lands (log entry 15). The
inputs come in their order, but no command can be issued past a transfer that is never answered, so a
hardware reset lands there whatever commands wait before it (R325). -/
def State.resetLands (s : State) : Option (List HostInput) :=
  match s.phase with
  | .transfer => withoutReset s.host.pending
  | .idle | .encode | .parse =>
    match s.host.pending with
    | .hardwareReset :: rest => some rest
    | .command _ :: _ => none
    | [] => none

/-- A hardware reset (R310). No command is answered. -/
def hardwareReset (rest : List HostInput) (s : State) : State :=
  { toReset s with host := { pending := rest, response := none } }

/-! ### The two runs of a frame operation (40_frame.md R136, R143) -/

/-- ENCODE: the frame's bytes go to TXB at OFS, OFS and FP advance, PECR is as the frame leaves it. -/
def encodeFrame (tx : List Byte) (pecr : PecReg) (s : State) : Result :=
  if s.ofs.toNat + tx.length ≤ bufmax s.params then
    .next { s with
      txb := memWrite s.txb s.ofs.toNat tx
      ofs := s.ofs + BitVec.ofNat 32 tx.length
      fp := s.fp + 1#16
      pecr := pecr }
  else .fault .bufferOverrun

/-- `x[i] <- v` (00_scope.md R9): entry `i` holds `v`, every other is as before. A walk writes its
entries in order (R212), so `i` is at most the number of those that hold a value (log entry 9). -/
def writeResult (res : List DWord) (i : Nat) (v : DWord) : List DWord :=
  res.take i ++ v :: res.drop (i + 1)

/-- `x[FP] <- v` at the end of PARSE, OFS and FP advancing. -/
def deliver (v : DWord) (count : Nat) (s : State) : Result :=
  if s.fp.toNat < s.params.qdepth then
    .next { s with
      res := writeResult s.res s.fp.toNat v
      ofs := s.ofs + BitVec.ofNat 32 count
      fp := s.fp + 1#16 }
  else .fault .noSuchResult

/-- The bytes of a slice that PARSE assembles (R143): `n` bytes after the header. -/
def sliceData (h n : Nat) (slice : List Byte) : List Byte := (slice.drop h).take n

/-- PARSE of a frame with `h` header, `n` data and `t` tail bytes, in the order of R143: slice
length (R145), echo (R146), received PEC field where `verify` (R148), result (R144). -/
def parseFrame (h n t : Nat) (verify : Bool) (s : State) : Result :=
  let slice := memRead s.rxb s.ofs.toNat (h + n + t)
  let dat := sliceData h n slice
  if slice.length ≠ h + n + t then .next (abort .framingLen s)
  else if s.echoChk && echoNonzero h slice then .next (abort .framingEcho s)
  else if verify then
    if slice.drop (h + n) = s.pecBytes dat then
      deliver (be dat) (h + n + t) { s with pecr := s.pecOf dat }
    else .next (abort .pecMismatch { s with pecr := s.pecOf dat })
  else deliver (be dat) (h + n + t) s

/-- A frame operation: ENCODE in the encode walk, PARSE in the parse walk (R204), nothing outside
EXEC (log entry 8). -/
def runFrame (tx : List Byte) (pecr : PecReg) (h n t : Nat) (verify : Bool)
    (s : State) : Result :=
  match s.phase with
  | .encode => encodeFrame tx pecr s
  | .parse => parseFrame h n t verify s
  | .idle => .refused .frameOutsideExec
  | .transfer => .refused .frameOutsideExec

/-! ### The transport (20_memory.md R66, R67) -/

/-- The answer to a transfer of `tx`: the script's next, or the free value of what was sent. -/
def BusPort.answer (b : BusPort) (tx : List Byte) : TransportAnswer :=
  match b.script with
  | a :: _ => a
  | [] => Config.xportAnswer (tx :: b.sent)

/-- The port after a transfer of `tx`. -/
def BusPort.afterTransfer (b : BusPort) (tx : List Byte) : BusPort :=
  { script := b.script.tail, sent := tx :: b.sent }

/-- RXN for an answer of `n` bytes (R40); free where 32 bits cannot hold it (log entry 10). -/
def rxLength (n : Nat) : Word :=
  if n < 2 ^ 32 then BitVec.ofNat 32 n else Config.rxnUnrepresentable n

/-- The start of EXEC (R204): FP and OFS at 0, TXB holding nothing. -/
def beginEncode (s : State) : State :=
  { s with fp := 0#16, ofs := 0#32, txb := [], phase := .encode }

/-- `TXB[0 .. TXN-1]` at the end of the encode walk, where TXN is OFS (R204, R206). -/
def sentBytes (s : State) : List Byte := memRead s.txb 0 s.ofs.toNat

/-- The end of the encode walk and the one call of `Transfer` (R204, R208): TXN is OFS, and XPORT has
the bytes. -/
def handOver (s : State) : State :=
  { s with txn := s.ofs, bus := s.bus.afterTransfer (sentBytes s) }

/-- A transfer that is never answered (R67): the command is in progress and has no response. -/
def unanswered (s : State) : State :=
  { s with phase := .transfer, host := { s.host with response := none } }

/-- What the answer `ok(rx)` stores (R29, R40): at most BUFMAX bytes, the true length in RXN. -/
def storeAnswer (rx : List Byte) (s : State) : State :=
  { s with rxb := Memory.cells 0 (rx.take (bufmax s.params)), rxn := rxLength rx.length }

/-- What the answer `ioerror` stores (R204, R215). -/
def storeNothing (s : State) : State := { s with rxb := [], rxn := 0#32 }

/-- FP of an abort that does not come from PARSE (R204). -/
def rewind (s : State) : State := { s with fp := 0#16 }

/-- The start of the parse walk (R204). -/
def beginParse (s : State) : State := { s with fp := 0#16, ofs := 0#32, phase := .parse }

/-- The transfer of EXEC and the length check (R204, R208, R209), from the end of the encode walk. -/
def transfer (s : State) : State :=
  match s.bus.answer (sentBytes s) with
  | .never => unanswered (handOver s)
  | .ioerror => abort .transportIo (rewind (storeNothing (handOver s)))
  | .ok rx =>
    if rx.length = s.ofs.toNat then beginParse (storeAnswer rx (handOver s))
    else abort .framingLen (rewind (storeAnswer rx (handOver s)))

/-- The success of EXEC (R204, R212): RES has one entry per frame, DONE set, the queue empty. -/
def complete (s : State) : State :=
  respond .empty { s with res := s.res.take s.dq.length, done := true, dq := [], phase := .idle }

/-! ### Fetching -/

/-- Go on from a next state. -/
def onNext (r : Result) (f : State → Result) : Result :=
  match r with
  | .next s => f s
  | .fault e => .fault e
  | .refused e => .refused e

/-- The words the next step runs: inside a walk the descriptor DQ[FP] (R23), otherwise the oldest
message at the command port. -/
def State.fetch (s : State) : Option Code :=
  match s.phase with
  | .encode | .parse => (s.dq[s.fp.toNat]?).map Code.desc
  | .transfer => none
  | .idle =>
    match s.host.pending with
    | .command m :: _ => some (.host m)
    | .hardwareReset :: _ => none
    | [] => none

/-- The command port after the oldest input is taken. -/
def takeInput (s : State) : State := { s with host := { s.host with pending := s.host.pending.tail } }

/-- What words that are no instruction do: at the command port ILLEGAL CMD (R110, R250), but for a
message of a known command with the wrong operands (log entry 6); in the queue, a fault. -/
def undecodable (e : DecodeError) (s : State) : Result :=
  match e with
  | .unknownOp => .next (raise .illegalCmd s)
  | .unusedField => .next (raise .illegalCmd s)
  | .operandCount => .refused .operandCount
  | .reservedBits => .fault .illegalDescriptor
  | .reservedFmt => .fault .illegalDescriptor
  | .dlenRange => .fault .illegalDescriptor
  | .addrRange => .fault .illegalDescriptor
  | .valueRange => .fault .illegalDescriptor

/-- The state whose next step fetches `c`: at the head of the command port, or as the only entry of
the queue with the encode walk begun. -/
def placeCode (c : Code) (s : State) : State :=
  match c with
  | .host m => { s with phase := .idle, host := { s.host with pending := .command m :: s.host.pending } }
  | .desc d =>
    { beginEncode s with
      dq := [d]
      host := { s.host with pending := s.host.pending.dropWhile (fun i => i == .hardwareReset) } }

end Sys2Proof.Machine
end

