-- ==== Sys2Proof/Machine/Frame.lean ====
section
/-! DEFINITION. The meanings of the six frame operations (40_frame.md R130 to R135), and the choice among them that a
queued descriptor makes (30_encoding.md R101). -/

namespace Sys2Proof.Machine

/-- RD.A (R130). -/
def execRdA (addr : BitVec 16) (dlen : BitVec 4) (_value : DWord) (s : State) : Result :=
  runFrame (headerA addr true ++ fillBytes dlen.toNat) s.pecr (hlen .a) dlen.toNat (tlen .a) false s

/-- WR.A (R131). -/
def execWrA (addr : BitVec 16) (dlen : BitVec 4) (value : DWord) (s : State) : Result :=
  runFrame (headerA addr false ++ bytesBe value dlen.toNat) s.pecr (hlen .a) dlen.toNat (tlen .a)
    false s

/-- RD.B (R132). -/
def execRdB (addr : BitVec 16) (dlen : BitVec 4) (_value : DWord) (s : State) : Result :=
  runFrame (headerB s addr true ++ fillBytes dlen.toNat) s.pecr (hlen .b) dlen.toNat (tlen .b) false s

/-- WR.B (R133). -/
def execWrB (addr : BitVec 16) (dlen : BitVec 4) (value : DWord) (s : State) : Result :=
  runFrame (headerB s addr false ++ bytesBe value dlen.toNat) s.pecr (hlen .b) dlen.toNat (tlen .b)
    false s

/-- RD.C (R134): two more filler bytes for the tail (R140); PECR is left with the command PEC by
ENCODE, with the data PEC by PARSE. -/
def execRdC (addr : BitVec 16) (dlen : BitVec 4) (_value : DWord) (s : State) : Result :=
  runFrame (headerC s addr ++ fillBytes dlen.toNat ++ fillBytes 2) (s.pecOf (commandBytes addr))
    (hlen .c) dlen.toNat (tlen .c) true s

/-- WR.C (R135): PECR is left with the data PEC by ENCODE; PARSE discards the tail (R149). -/
def execWrC (addr : BitVec 16) (dlen : BitVec 4) (value : DWord) (s : State) : Result :=
  runFrame (headerC s addr ++ bytesBe value dlen.toNat ++ writeTail s (bytesBe value dlen.toNat))
    (s.pecOf (bytesBe value dlen.toNat)) (hlen .c) dlen.toNat (tlen .c) false s

/-- The frame operation that a descriptor's FMT and RD select (R101). -/
def execFrame (f : Frame) (s : State) : Result :=
  match f.fmt, f.rd with
  | .a, true => execRdA f.addr f.dlen f.value s
  | .a, false => execWrA f.addr f.dlen f.value s
  | .b, true => execRdB f.addr f.dlen f.value s
  | .b, false => execWrB f.addr f.dlen f.value s
  | .c, true => execRdC f.addr f.dlen f.value s
  | .c, false => execWrC f.addr f.dlen f.value s

end Sys2Proof.Machine
end

