-- ==== Sys2Proof/Machine/Batcher.lean ====
section
/-! DEFINITION. The meanings of DQ.PUSH, DQ.CLR, EXEC and RES.RD (42_batcher.md R200 to R217). -/

namespace Sys2Proof.Machine

/-- What DQ.PUSH leaves (R200): legality first (R201), then room (R202). -/
def pushDescriptor (d : Descriptor) (s : State) : State :=
  match decodeFrame d with
  | .error _ => raise .illegalDesc s
  | .ok _ =>
    if s.params.qdepth ≤ s.dq.length then raise .stateQueueFull s
    else respond .empty { s with dq := s.dq ++ [d] }

/-- DQ.PUSH (R200). -/
def execDqPush (dw0 : Word) (dw1 : DWord) (s : State) : Result :=
  .next (pushDescriptor { dw0 := dw0, dw1 := dw1 } s)

/-- DQ.CLR (R203). -/
def execDqClr (s : State) : Result := .next (respond .empty { s with dq := [] })

/-- One walk of EXEC over the queue (R206, R210): each frame operation in order, until one of them
ends the walk by an abort. -/
def walk (ds : List Descriptor) (s : State) : Result :=
  match ds with
  | [] => .next s
  | d :: rest =>
    match decodeFrame d with
    | .error _ => .fault .illegalDescriptor
    | .ok f => onNext (execFrame f s) (fun s' => if s'.phase = s.phase then walk rest s' else .next s')

/-- After the transfer (R204): the parse walk, if the length check let it begin, and the success. -/
def finishExec (ds : List Descriptor) (s : State) : Result :=
  if s.phase = .parse then
    onNext (walk ds s) (fun s' => .next (if s'.phase = .parse then complete s' else s'))
  else .next s

/-- EXEC (R204): refused while READY is 0 (R205); otherwise the encode walk, the one transfer and
the parse walk, all in one step. -/
def execExec (s : State) : Result :=
  if s.ready then onNext (walk s.dq (beginEncode s)) (fun s' => finishExec s.dq (transfer s'))
  else .next (raise .stateNotReady s)

/-- What RES.RD leaves (R217). -/
def readResult (i : BitVec 16) (s : State) : State :=
  match s.res[i.toNat]? with
  | some v => respond (.result v) s
  | none => raise .stateNoResult s

/-- RES.RD (R217). -/
def execResRd (i : BitVec 16) (s : State) : Result := .next (readResult i s)

end Sys2Proof.Machine
end

