-- ==== Sys2Proof/Machine/HostControl.lean ====
section
/-! DEFINITION. The meanings of RESET, CSR.RD, CSR.WR, INIT and ERR.CLR (43_host_control.md R240 to R249). -/

namespace Sys2Proof.Machine

/-- RESET (R240). -/
def execReset (s : State) : Result := .next (respond .empty (toReset s))

/-- What CSR.RD leaves (R241). -/
def readCsr (k : BitVec 8) (s : State) : State :=
  match csrRead s k with
  | some v => respond (.word v) s
  | none => raise .illegalCsrNum s

/-- CSR.RD (R241). -/
def execCsrRd (k : BitVec 8) (s : State) : Result := .next (readCsr k s)

/-- What CSR.WR leaves (R242): the number, then read-only, then the lock (R43). -/
def writeCsr (k : BitVec 8) (v : Word) (s : State) : State :=
  if 10 < k.toNat then raise .illegalCsrNum s
  else if !csrWritable k then raise .stateReadOnly s
  else if s.ready then raise .stateLocked s
  else respond .empty (csrWrite s k v)

/-- CSR.WR (R242). -/
def execCsrWr (k : BitVec 8) (v : Word) (s : State) : Result := .next (writeCsr k v s)

/-- WARN as INIT leaves it, before the four checks (R247). -/
def warnExtraFlags (extraFlags : Word) (s : State) : State :=
  { s with warn := s.warn || extraFlags != Config.extraFlagsDefault }

/-- The four checks of INIT in their order (R244, R245), and READY when they pass (R246). -/
def validateBus (buscfg maxSpeed : Word) (s : State) : State :=
  if !modeSupported s.params buscfg then raise .configMode s
  else if !speedSupported s.params maxSpeed then raise .configSpeed s
  else if lsbFirst buscfg then raise .configBitOrder s
  else if !wordSizeOk buscfg then raise .configWordSize s
  else respond .empty { s with ready := true }

/-- What INIT leaves (R243). -/
def initBus (buscfg maxSpeed extraFlags : Word) (s : State) : State :=
  if buscfgReservedSet buscfg then raise .illegalCmd s
  else if s.ready then raise .stateAlready s
  else validateBus buscfg maxSpeed (warnExtraFlags extraFlags s)

/-- INIT (R243). -/
def execInit (buscfg maxSpeed extraFlags : Word) (s : State) : Result :=
  .next (initBus buscfg maxSpeed extraFlags s)

/-- ERR.CLR (R248). -/
def execErrClr (s : State) : Result :=
  .next (respond .empty { s with err := 0#4, esub := 0#4, warn := false })

end Sys2Proof.Machine
end

