-- ==== Sys2Proof/Machine/PecCommands.lean ====
section
/-! DEFINITION. The meanings of PEC.CALC and PEC.CHK (41_pec_engine.md R178, R179). -/

namespace Sys2Proof.Machine

/-- The final vector of a computation stays in PECR (R41). -/
def computePec (l : List Byte) (s : State) : State := { s with pecr := s.pecOf l }

/-- PEC.CALC (R178). -/
def execPecCalc (l : List Byte) (s : State) : Result :=
  .next (respond (.pecField (pecHigh (s.pecVector l)) (pecLow (s.pecVector l))) (computePec l s))

/-- PEC.CHK (R179): the comparison is over both bytes. -/
def execPecChk (l : List Byte) (q0 q1 : Byte) (s : State) : Result :=
  .next (if pecHigh (s.pecVector l) = q0 ∧ pecLow (s.pecVector l) = q1 then
      respond .empty (computePec l s)
    else raise .pecMismatch (computePec l s))

end Sys2Proof.Machine
end

