-- ==== Sys2Proof/Machine/Dispatch.lean ====
section
/-! DEFINITION. Each instruction's meaning, one arm per row of spec/opcode_table.json. -/

namespace Sys2Proof.Machine

/-- The meaning of an instruction. -/
def exec (i : Instr) (s : State) : Host.Outcome State Fault Refusal :=
  match i with
  | .rdA a n v => Sys2Proof.Machine.execRdA a n v s
  | .wrA a n v => Sys2Proof.Machine.execWrA a n v s
  | .rdB a n v => Sys2Proof.Machine.execRdB a n v s
  | .wrB a n v => Sys2Proof.Machine.execWrB a n v s
  | .rdC a n v => Sys2Proof.Machine.execRdC a n v s
  | .wrC a n v => Sys2Proof.Machine.execWrC a n v s
  | .reset => Sys2Proof.Machine.execReset s
  | .csrRd k => Sys2Proof.Machine.execCsrRd k s
  | .csrWr k v => Sys2Proof.Machine.execCsrWr k v s
  | .init b m e => Sys2Proof.Machine.execInit b m e s
  | .errClr => Sys2Proof.Machine.execErrClr s
  | .dqPush w d => Sys2Proof.Machine.execDqPush w d s
  | .dqClr => Sys2Proof.Machine.execDqClr s
  | .exec => Sys2Proof.Machine.execExec s
  | .resRd k => Sys2Proof.Machine.execResRd k s
  | .pecCalc l => Sys2Proof.Machine.execPecCalc l s
  | .pecChk l p q => Sys2Proof.Machine.execPecChk l p q s

end Sys2Proof.Machine
end

