-- ==== Sys2Proof/Machine/Step.lean ====
section
/-! DEFINITION. One step: the oldest input at the command port, one whole host command (00_scope.md R10), or, from a state
inside EXEC, the next part of EXEC. -/

namespace Sys2Proof.Machine

/-- Run fetched words in `s`, from which they are already taken. -/
def runCode (c : Code) (s : State) : Result :=
  match decode c with
  | .ok i => exec i s
  | .error e => undecodable e s

/-- A step without a hardware reset, by where the machine stands. -/
def stepPhase (s : State) : Result :=
  match s.phase, s.fetch with
  | .idle, some c => runCode c (takeInput s)
  | .idle, none => .next s
  | .encode, some c => runCode c s
  | .encode, none => .next (transfer s)
  | .parse, some c => runCode c s
  | .parse, none => .next (complete s)
  | .transfer, _ => .next s

/-- One step. A hardware reset that lands is taken before anything else (R310), and alone ends a transfer
that is never answered (R67, R325). With nothing presented the machine waits (R46, R293). -/
def step (s : State) : Host.Outcome State Fault Refusal :=
  match s.resetLands with
  | some rest => .next (hardwareReset rest s)
  | none => stepPhase s

/-- `s` with the opcode-table word `w` where the next step fetches (log entry 11). -/
def State.withFetchWord (s : State) (nbits w : Nat) : State := placeCode (tableCode nbits w) s

end Sys2Proof.Machine
end

