-- ==== Sys2Proof/Machine/Pseudo.lean ====
section
/-! DEFINITION. The pseudo-operations READ.f and WRITE.f of the host (30_encoding.md R116). -/

namespace Sys2Proof.Machine

/-- DQ.PUSH with the descriptor of a frame as operands (R115). -/
def pushOp (f : Frame) : Instr := .dqPush f.descriptor.dw0 f.descriptor.dw1

/-- READ.f addr, n (R116). -/
def readOp (fmt : Fmt) (addr : BitVec 16) (dlen : BitVec 4) : List Instr :=
  [.dqClr, pushOp ⟨fmt, true, addr, dlen, 0#64⟩, .exec, .resRd 0#16]

/-- WRITE.f addr, n, v (R116). -/
def writeOp (fmt : Fmt) (addr : BitVec 16) (dlen : BitVec 4) (value : DWord) : List Instr :=
  [.dqClr, pushOp ⟨fmt, false, addr, dlen, value⟩, .exec, .resRd 0#16]

/-- The last command was answered with ERR = 0. -/
def succeeded (s : State) : Bool :=
  match s.host.response with
  | some r => r.err == 0#4
  | none => false

/-- Commands issued one after the other until one ends in error (R116) or is never answered (R67). -/
def runSequence (l : List Instr) (s : State) : Result :=
  match l with
  | [] => .next s
  | i :: rest => onNext (exec i s) (fun s' => if succeeded s' then runSequence rest s' else .next s')

end Sys2Proof.Machine
end

