-- ==== Sys2Proof/Safety.lean ====
section
/-! DEFINITION. What a safe run is, and the terms the claims use: the invariant of the states between steps, and the frame
codec as arithmetic on numbers (40_frame.md R136 to R149), apart from the machine's own definitions. -/

namespace Sys2Proof.Machine

/-- A queued descriptor is legal (10_state.md R28, 30_encoding.md R102). -/
def descriptorLegal (d : Descriptor) : Bool :=
  match decodeFrame d with
  | .ok _ => true
  | .error _ => false

/-- Every error of 60_exceptions.md R275. -/
def errorKinds : List ErrorKind :=
  [.configMode, .configSpeed, .configBitOrder, .configWordSize, .framingLen, .framingEcho,
   .pecMismatch, .transportIo, .illegalCmd, .illegalDesc, .illegalCsrNum, .stateNotReady,
   .stateLocked, .stateReadOnly, .stateQueueFull, .stateNoResult, .stateAlready]

/-- ERR and ESUB hold no error, or a pair of the table of R275. -/
def errorRecordOk (err esub : BitVec 4) : Bool :=
  (err == 0#4 && esub == 0#4) || errorKinds.any (fun e => e.code == err && e.sub == esub)

/-- A buffer holds exactly the bytes at offsets 0 to its length less one (20_memory.md R61, R62). -/
def gapless (m : Memory) : Bool := m == Memory.cells 0 (m.map Prod.snd)

/-- The invariant of the states between steps. -/
structure State.Inv (s : State) : Prop where
  /-- QDEPTH is in its range (00_scope.md R7 P4). -/
  qdepthRange : 1 ≤ s.params.qdepth ∧ s.params.qdepth ≤ 65535
  /-- PEC_SEED, PEC_TAPS and PECR have PEC_W bits (10_state.md R27, R34, R35). -/
  pecRegisters : s.pecSeed.toNat < 2 ^ s.pecW ∧ s.pecTaps.toNat < 2 ^ s.pecW ∧ s.pecr.toNat < 2 ^ s.pecW
  /-- Bit 0 of PEC_TAPS is hardwired to 1 (10_state.md R35). -/
  tapsBitZero : s.pecTaps.getLsbD 0 = true
  /-- DQ has at most QDEPTH entries (R28). -/
  queueFits : s.dq.length ≤ s.params.qdepth
  /-- Every descriptor in DQ is legal (R28). -/
  queueLegal : s.dq.all descriptorLegal = true
  /-- RES has at most QDEPTH entries (R21). -/
  resultsFit : s.res.length ≤ s.params.qdepth
  /-- TXB holds TXN bytes from offset 0 (R29). -/
  txForm : gapless s.txb = true ∧ s.txb.length = s.txn.toNat
  /-- TXN is at most BUFMAX (R29). -/
  txFits : s.txn.toNat ≤ bufmax s.params
  /-- RXB holds bytes from offset 0, at most BUFMAX of them (R29, R40). -/
  rxForm : gapless s.rxb = true ∧ s.rxb.length ≤ bufmax s.params
  /-- The error record is a pair of R275 or clear. -/
  errorRecord : errorRecordOk s.err s.esub = true
  /-- No step ends inside a walk: every command is atomic (00_scope.md R10). -/
  atRest : s.phase = .idle ∨ s.phase = .transfer
  /-- Without DONE there is no result (42_batcher.md R216). -/
  noPartialResults : s.done = false → s.res = []
  /-- With DONE and no transfer outstanding, FP and RESN are both the number of frames (R212). -/
  doneCount : s.done = true → s.phase = .idle → s.fp.toNat = s.res.length

/-! ### The codec of the claims -/

/-- The number that bytes spell, the first the most significant (40_frame.md R144). -/
def valueOf (l : List Byte) : Nat := l.foldl (fun acc b => acc * 256 + b.toNat) 0

/-- The `n` bytes of a number, the most significant first (R139). -/
def digitsOf (v n : Nat) : List Byte := (List.range n).map (fun k => BitVec.ofNat 8 (v / 256 ^ (n - 1 - k)))

/-- The two command bytes of a format C frame (30_encoding.md R96). -/
def frameCommand (f : Frame) : List Byte :=
  [BitVec.ofNat 8 (f.addr.toNat / 256), BitVec.ofNat 8 f.addr.toNat]

/-- `header(d)` (40_frame.md R137). -/
def frameHeader (s : State) (f : Frame) : List Byte :=
  match f.fmt with
  | .a => [BitVec.ofNat 8 (f.addr.toNat % 64 * 4 + f.rd.toNat)]
  | .b => [BitVec.ofNat 8 (s.opc.toNat * 16 + s.hwaddr.toNat * 2 + f.rd.toNat),
      BitVec.ofNat 8 f.addr.toNat]
  | .c => frameCommand f ++ s.pecBytes (frameCommand f)

/-- `data(d)` (R138). -/
def frameData (f : Frame) : List Byte :=
  if f.rd then List.replicate f.dlen.toNat 0xFF#8 else digitsOf f.value.toNat f.dlen.toNat

/-- `tail(d)` (R140). -/
def frameTail (s : State) (f : Frame) : List Byte :=
  match f.fmt with
  | .a => []
  | .b => []
  | .c => if f.rd then [0xFF#8, 0xFF#8] else s.pecBytes (frameData f)

/-- `tx(d)` (R136). -/
def frameTx (s : State) (f : Frame) : List Byte := frameHeader s f ++ frameData f ++ frameTail s f

/-- The vector ENCODE leaves in PECR where PECR held `p` (R134 to R136). -/
def framePecr (s : State) (p : PecReg) (f : Frame) : PecReg :=
  match f.fmt with
  | .a => p
  | .b => p
  | .c => if f.rd then s.pecOf (frameCommand f) else s.pecOf (frameData f)

/-- The data bytes of a slice (R143). -/
def sliceBytes (f : Frame) (sl : List Byte) : List Byte := (sl.drop (hlen f.fmt)).take f.dlen.toNat

/-- The echo check fails on a slice (R146). -/
def echoFails (s : State) (f : Frame) (sl : List Byte) : Bool :=
  s.echoChk && !(sl.take (hlen f.fmt)).all (fun b => b.toNat == 0)

/-- The received PEC field of an RD.C slice differs from the PEC of its data (R148). -/
def fieldFails (s : State) (f : Frame) (sl : List Byte) : Bool :=
  f.fmt == .c && f.rd && sl.drop (hlen f.fmt + f.dlen.toNat) != s.pecBytes (sliceBytes f sl)

/-- `PARSE(d, s)` on a slice of `count(d)` bytes: the first check that fails, or the result (R143). -/
def parseSlice (s : State) (f : Frame) (sl : List Byte) : Except ErrorKind DWord :=
  if echoFails s f sl then .error .framingEcho
  else if fieldFails s f sl then .error .pecMismatch
  else .ok (BitVec.ofNat 64 (valueOf (sliceBytes f sl)))

/-- The vector PARSE leaves in PECR where PECR held `p` (R134, R180). -/
def slicePecr (s : State) (p : PecReg) (f : Frame) (sl : List Byte) :
    PecReg :=
  if f.fmt == .c && f.rd && !echoFails s f sl then s.pecOf (sliceBytes f sl) else p

/-! ### The transaction of the claims (42_batcher.md R206 to R212) -/

/-- The frames of the queue. -/
def queueFrames (s : State) : List Frame :=
  s.dq.filterMap (fun d => match decodeFrame d with | .ok f => some f | .error _ => none)

/-- `tx(DQ[0]) ++ ... ++ tx(DQ[N-1])` (R206). -/
def queueTx (s : State) : List Byte := (queueFrames s).flatMap (frameTx s)

/-- The results of the frames in order, or the index of the first whose PARSE raises and what it
raises (R210, R211). -/
def parseQueue (s : State) (fs : List Frame) (rx : List Byte) : Except (Nat × ErrorKind) (List DWord) :=
  match fs with
  | [] => .ok []
  | f :: rest =>
    match parseSlice s f (rx.take (frameCount f)) with
    | .error e => .error (0, e)
    | .ok v =>
      match parseQueue s rest (rx.drop (frameCount f)) with
      | .ok vs => .ok (v :: vs)
      | .error (i, e) => .error (i + 1, e)

/-- PECR after the parse walk over the frames, up to the first that raises. -/
def parsePecr (s : State) (p : PecReg) (fs : List Frame) (rx : List Byte) :
    PecReg :=
  match fs with
  | [] => p
  | f :: rest =>
    match parseSlice s f (rx.take (frameCount f)) with
    | .error _ => slicePecr s p f (rx.take (frameCount f))
    | .ok _ => parsePecr s (slicePecr s p f (rx.take (frameCount f))) rest (rx.drop (frameCount f))

/-- The state of an EXEC once TXB has been handed to XPORT: TXB, TXN and the record of what was sent,
with PECR as the encode walk leaves it. -/
def execSent (s : State) : State :=
  { s with
    txb := Memory.cells 0 (queueTx s)
    txn := BitVec.ofNat 32 (queueTx s).length
    pecr := (queueFrames s).foldl (framePecr s) s.pecr
    bus := s.bus.afterTransfer (queueTx s) }

/-- The abort of EXEC with the pair (ERR, ESUB), FP at `fp` (R204, R216). -/
def execAborted (s : State) (fp ofs : Nat) (err esub : BitVec 4) : State :=
  { s with
    res := [], done := false, dq := [], phase := .idle
    fp := BitVec.ofNat 16 fp, ofs := BitVec.ofNat 32 ofs
    err := err, esub := esub
    host := { s.host with response := some { err := err, esub := esub, payload := .empty } } }

/-! ### Shapes of outcomes -/

/-- `r` is an ENCODE of `tx` in `s` that leaves `p` in PECR: the bytes lie at OFS, every other byte of
TXB is as before, OFS and FP advance, nothing else changes. -/
def EncodesAs (r : Result) (s : State) (tx : List Byte) (p : PecReg) : Prop :=
  ∃ t, r = .next t ∧
    t = { s with
      txb := t.txb, ofs := s.ofs + BitVec.ofNat 32 tx.length, fp := s.fp + 1#16, pecr := p } ∧
    ∀ a, t.txb.byte a =
      if s.ofs.toNat ≤ a ∧ a < s.ofs.toNat + tx.length then tx[a - s.ofs.toNat]? else s.txb.byte a

/-- The receive buffer holds `sl` at OFS. -/
def SliceAt (s : State) (sl : List Byte) : Prop :=
  ∀ k, k < sl.length → s.rxb.byte (s.ofs.toNat + k) = sl[k]?

/-- `r` is a PARSE in `s` that delivers `v` as RES[FP] and leaves `p` in PECR: every other result is as
before, OFS and FP advance, nothing else changes. -/
def DeliversAs (r : Result) (s : State) (v count : Nat) (p : PecReg) : Prop :=
  ∃ t, r = .next t ∧
    t = { s with res := t.res, ofs := s.ofs + BitVec.ofNat 32 count, fp := s.fp + 1#16, pecr := p } ∧
    ∀ j, t.res[j]? = if j = s.fp.toNat then some (BitVec.ofNat 64 v) else s.res[j]?

/-- `r` is a PARSE in `s` that aborts the transaction with (ERR, ESUB) and leaves `p` in PECR; FP and
OFS stay at the failing frame. -/
def AbortsAs (r : Result) (s : State) (err esub : BitVec 4) (p : PecReg) : Prop :=
  r = .next { s with
    res := [], done := false, dq := [], phase := .idle, pecr := p
    err := err, esub := esub
    host := { s.host with response := some { err := err, esub := esub, payload := .empty } } }

/-- `r` is a command that ends in the error (ERR, ESUB) and changes nothing else of `s`. -/
def RefusedAs (r : Result) (s : State) (err esub : BitVec 4) : Prop :=
  r = .next { s with
    err := err, esub := esub
    host := { s.host with response := some { err := err, esub := esub, payload := .empty } } }

/-- `r` is a command that succeeds with the payload `p` and leaves `s` as the block's state. -/
def AnswersAs (r : Result) (s : State) (p : Payload) : Prop :=
  r = .next { s with host := { s.host with response := some { err := 0#4, esub := 0#4, payload := p } } }

/-- The eleven host commands, as against the frame operations (30_encoding.md R108). -/
def isCommand (i : Instr) : Bool :=
  match i with
  | .rdA _ _ _ | .wrA _ _ _ | .rdB _ _ _ | .wrB _ _ _ | .rdC _ _ _ | .wrC _ _ _ => false
  | .reset | .csrRd _ | .csrWr _ _ | .init _ _ _ | .errClr | .dqPush _ _ | .dqClr | .exec | .resRd _
  | .pecCalc _ | .pecChk _ _ _ => true

end Sys2Proof.Machine
end

