-- ==== Sys2Proof/Certificates/Slice0/Obligations.lean ====
section
/-! DEFINITION. The statements for the provers. Each docstring names the rule of spec/ it formalises. -/

open Sys2Proof Sys2Proof.Machine

/-! ### Reset -/

/-- 10_state.md R46 (first sentence and table), 41_pec_engine.md R181, for a block of every PEC_W and every
other parameter: every row of the table. The reset state is such a block with PEC_W at its default, 15; its
other parameters and its ports are the model's own (log entries 1 to 4). -/
def Obligations.ResetStateHoldsTheTable : Prop :=
  (∀ p : Params,
    let s := State.resetWith p
    s.statusWord = 0#32 ∧
    s.fp = 0#16 ∧ s.ofs = 0#32 ∧
    s.echoChk = false ∧
    s.pecSeed.toNat = 0x0010 % 2 ^ p.pecW.val ∧
    (∀ k : Nat, s.pecTaps.getLsbD k = (decide (k = 0) || p.pecTapsRst.getLsbD k)) ∧
    s.opc = 0#4 ∧ s.hwaddr = 0#3 ∧
    s.dqn = 0#16 ∧ s.dq = [] ∧
    s.resn = 0#16 ∧ s.res = [] ∧
    s.txn = 0#32 ∧ s.rxn = 0#32 ∧
    (∀ a : Nat, s.txb.byte a = none ∧ s.rxb.byte a = none) ∧
    s.pecr.toNat = 0x0010 % 2 ^ p.pecW.val ∧
    s.params = p) ∧
  (State.reset = State.resetWith State.reset.params ∧ State.reset.params.pecW.val = 15 ∧
    State.reset.pecSeed.toNat = 0x0010 ∧ State.reset.pecr.toNat = 0x0010)

/-- 43_host_control.md R240 and 10_state.md R46: RESET answers success and leaves every piece of state
of the block at its reset value; what is outside the block (its parameters, the inputs still to come,
XPORT) stays (the ports are the model's, log entries 3 and 4). -/
def Obligations.ResetCommandRestoresResetValues : Prop :=
  ∀ s : State, exec .reset s = .next
    { State.resetWith s.params with
      host := { s.host with response := some { err := 0#4, esub := 0#4, payload := .empty } }
      bus := s.bus }

/-- 70_reset_and_hazards.md R310, R325: a hardware reset that comes next loads the same values as RESET, and
one that comes during a transfer that is never answered ends it, whatever commands wait before it. That a
hardware reset is an input of the command port, and that the waiting commands stay in it, is the model's
choice (log entries 4 and 15). -/
def Obligations.HardwareResetLoadsResetValues : Prop :=
  ∀ s : State, ∃ t, exec .reset s = .next t ∧
    (∀ rest : List HostInput, s.host.pending = .hardwareReset :: rest →
      step s = .next { t with host := { pending := rest, response := none } }) ∧
    (∀ (waiting : List Message) (rest : List HostInput), s.phase = .transfer →
      s.host.pending = waiting.map .command ++ .hardwareReset :: rest →
      step s = .next { t with host := { pending := waiting.map .command ++ rest, response := none } })

/-- The invariant of `State.Inv` holds right after reset, for a block of every PEC_W and every other
parameter whose QDEPTH is in its range (00_scope.md R7 P4), and for the reset state. -/
def Obligations.ResetStateMeetsInvariant : Prop :=
  (∀ p : Params, 1 ≤ p.qdepth → p.qdepth ≤ 65535 → (State.resetWith p).Inv) ∧ State.reset.Inv

/-! ### Encodings -/

/-- Words of 95_test_vectors.md decode to what they stand for: one of each frame format and direction,
and one of each unit's commands. -/
def Obligations.WordsOfTheSpecDecode : Prop :=
  decode (.desc ⟨0x00000119#32, 0#64⟩) = .ok (.rdA 0x0001#16 3#4 0#64) ∧
  decode (.desc ⟨0x00000210#32, 0xBEEF#64⟩) = .ok (.wrA 0x0002#16 2#4 0xBEEF#64) ∧
  decode (.desc ⟨0x0000120B#32, 0#64⟩) = .ok (.rdB 0x0012#16 1#4 0#64) ∧
  decode (.desc ⟨0x00000A0A#32, 0x3C#64⟩) = .ok (.wrB 0x000A#16 1#4 0x3C#64) ∧
  decode (.desc ⟨0x00810435#32, 0#64⟩) = .ok (.rdC 0x8104#16 6#4 0#64) ∧
  decode (.desc ⟨0x00000134#32, 0x123456789ABC#64⟩) = .ok (.wrC 0x0001#16 6#4 0x123456789ABC#64) ∧
  decode (.host ⟨0x00000403#32, [0x4598#32], []⟩) = .ok (.csrWr 4#8 0x4598#32) ∧
  decode (.host ⟨0x00000010#32, [0x134#32, 0x56789ABC#32, 0x1234#32], []⟩)
    = .ok (.dqPush 0x134#32 0x123456789ABC#64) ∧
  decode (.host ⟨0x00020021#32, [], [0x00#8, 0x01#8, 0x3D#8, 0x6E#8]⟩)
    = .ok (.pecChk [0x00#8, 0x01#8] 0x3D#8 0x6E#8)

/-- 30_encoding.md R100, R108: decoding the encoding of a well-formed instruction gives it back, with
every operand at every value. -/
def Obligations.DecodeOfEncodeIsIdentity : Prop :=
  ∀ i : Instr, i.WellFormed = true → decode (encode i) = .ok i

/-- 30_encoding.md R100, R108: words that decode have no other spelling, and what they decode to is
well-formed. -/
def Obligations.EncodeOfDecodeIsIdentity : Prop :=
  ∀ (c : Code) (i : Instr), decode c = .ok i → encode i = c ∧ i.WellFormed = true

/-- 30_encoding.md R102 to R106: the legal descriptors are exactly those whose reserved bits are 0,
whose FMT is not 3, whose DLEN is 1 to 8, whose ADDR fits the format, and, for a write, whose VALUE is
below 2^(8·DLEN). -/
def Obligations.LegalDescriptorsAreThoseOfTheRules : Prop :=
  ∀ d : Descriptor, descriptorLegal d = true ↔
    (d.dw0.toNat / 2 ^ 24 = 0 ∧ d.dw0.toNat / 2 ^ 7 % 2 = 0 ∧
     d.dw0.toNat / 2 % 4 ≠ 3 ∧
     1 ≤ d.dw0.toNat / 2 ^ 3 % 16 ∧ d.dw0.toNat / 2 ^ 3 % 16 ≤ 8 ∧
     (d.dw0.toNat / 2 % 4 = 0 → d.dw0.toNat / 2 ^ 8 % 2 ^ 16 < 64) ∧
     (d.dw0.toNat / 2 % 4 = 1 → d.dw0.toNat / 2 ^ 8 % 2 ^ 16 < 256) ∧
     (d.dw0.toNat % 2 = 0 → d.dw1.toNat < 2 ^ (8 * (d.dw0.toNat / 2 ^ 3 % 16))))

/-- 30_encoding.md R110: a message whose OP is not listed, or whose command word has a nonzero field
that its command does not use, or an INIT with a nonzero reserved BUSCFG bit, is taken from the port,
answered with ILLEGAL CMD (5, 1), recorded in ERR and ESUB, and changes nothing else. (The command port is
the model's, log entry 4.) -/
def Obligations.IllegalMessagesRaiseIllegalCmd : Prop :=
  ∀ (s : State) (m : Message) (rest : List HostInput),
    s.phase = .idle → s.host.pending = .command m :: rest →
    (m.cw.toNat % 256 ∉ [0x01, 0x02, 0x03, 0x04, 0x05, 0x10, 0x11, 0x12, 0x13, 0x20, 0x21] ∨
     (m.cw.toNat % 256 ∉ [0x02, 0x03] ∧ m.cw.toNat / 256 % 256 ≠ 0) ∨
     (m.cw.toNat % 256 ∉ [0x13, 0x20, 0x21] ∧ m.cw.toNat / 65536 ≠ 0) ∨
     (m.cw.toNat = 0x04 ∧ m.bytes = [] ∧ ∃ b x y : Word, m.words = [b, x, y] ∧
       (b.toNat / 65536 ≠ 0 ∨ b.toNat / 8 % 32 ≠ 0))) →
    step s = .next { s with
      err := 5#4, esub := 1#4
      host := { pending := rest, response := some { err := 5#4, esub := 1#4, payload := .empty } } }

/-! ### One step -/

/-- 43_host_control.md R250 and 10_state.md R23: between commands a step takes the oldest message and
runs the instruction it decodes to; inside a walk of EXEC it runs the one that DQ[FP] decodes to. With
nothing presented between commands it leaves the state as it is (R46: "waits for a host command";
60_exceptions.md R293). The command port and the phases are the model's (log entries 4 and 5). -/
def Obligations.StepRunsTheDecodedInstruction : Prop :=
  (∀ (s : State) (m : Message) (rest : List HostInput) (i : Instr),
    s.phase = .idle → s.host.pending = .command m :: rest → decode (.host m) = .ok i →
    step s = exec i { s with host := { s.host with pending := rest } }) ∧
  (∀ (s : State) (d : Descriptor) (i : Instr),
    s.phase = .encode ∨ s.phase = .parse → s.dq[s.fp.toNat]? = some d → decode (.desc d) = .ok i →
    (∀ rest, s.host.pending ≠ .hardwareReset :: rest) →
    step s = exec i s) ∧
  (∀ s : State, s.phase = .idle → s.host.pending = [] → step s = .next s)

/-- 20_memory.md R67 and 70_reset_and_hazards.md R325: a transfer that is not answered holds the
machine for any number of steps, whatever commands wait, unless a hardware reset comes. (The phase that
waits, the commands that stay waiting and the hardware reset among them are the model's, log entries 4, 5
and 15.) -/
def Obligations.UnansweredTransferHoldsForEver : Prop :=
  ∀ (s : State) (k : Nat), s.phase = .transfer → .hardwareReset ∉ s.host.pending →
    Host.Core.run Sys2Proof.core k s = .next s

/-- The headline invariant: every step from a state of `State.Inv` that goes on leads to one. -/
def Obligations.StepKeepsInvariant : Prop :=
  ∀ s t : State, s.Inv → step s = .next t → t.Inv

/-- From a state of `State.Inv` a step never faults, and is refused only between commands, for a message at
the head of the port whose command word is right and whose operands are not those its command takes (log
entry 6, the model's choice). -/
def Obligations.StepFromInvariantGoesOn : Prop :=
  ∀ s : State, s.Inv →
    (∃ t, step s = .next t) ∨
    (∃ (m : Message) (rest : List HostInput), s.phase = .idle ∧ s.host.pending = .command m :: rest ∧
      decode (.host m) = .error .operandCount ∧ step s = .refused .operandCount)

/-! ### The PEC engine -/

/-- 41_pec_engine.md R172, for every width and every tap mask whose bit 0 is set: the feedback bit is the
input XOR the top bit; it enters at bit 0; every other bit takes its lower neighbour, XOR the feedback
bit where the mask has a tap. -/
def Obligations.ShiftFollowsTheTaps : Prop :=
  ∀ (w : Nat) (taps r : BitVec w) (din : Bool), 1 ≤ w → taps.getLsbD 0 = true →
    (pecShift taps r din).getLsbD 0 = (din ^^ r.getLsbD (w - 1)) ∧
    ∀ p, 1 ≤ p → p ≤ w - 1 →
      (pecShift taps r din).getLsbD p =
        (r.getLsbD (p - 1) ^^ (taps.getLsbD p && (din ^^ r.getLsbD (w - 1))))

/-- 41_pec_engine.md R173 and R175: the empty list gives the seed, and one more byte is eight shifts,
bit 7 first. -/
def Obligations.PecConsumesBytesTopBitFirst : Prop :=
  ∀ (w : Nat) (seed taps : BitVec w) (l : List Byte) (b : Byte),
    pec seed taps [] = seed ∧
    pec seed taps (l ++ [b]) =
      pecShift taps (pecShift taps (pecShift taps (pecShift taps (pecShift taps (pecShift taps
        (pecShift taps (pecShift taps (pec seed taps l) (b.getLsbD 7)) (b.getLsbD 6))
        (b.getLsbD 5)) (b.getLsbD 4)) (b.getLsbD 3)) (b.getLsbD 2)) (b.getLsbD 1)) (b.getLsbD 0)

/-- 41_pec_engine.md R176: for every width from 2 to 16, the two bytes, P0 above P1, are the vector
shifted up by 16 - W; with W = 15 bit 0 of P1 is 0. -/
def Obligations.PecFieldIsTheVectorLeftAligned : Prop :=
  (∀ (w : Nat) (v : BitVec w), 2 ≤ w → w ≤ 16 →
    (pecHigh v).toNat * 256 + (pecLow v).toNat = v.toNat * 2 ^ (16 - w)) ∧
  (∀ v : BitVec 15, (pecLow v).getLsbD 0 = false)

/-- 41_pec_engine.md R178, for every legal PEC_W: PEC.CALC answers the two bytes, P0 first, leaves the vector
in PECR, and changes nothing else; READY plays no part. -/
def Obligations.PecCalcAnswersTheField : Prop :=
  ∀ (s : State) (l : List Byte),
    let w := s.params.pecW.val
    let v := pec (BitVec.ofNat w s.pecSeed.toNat) (BitVec.ofNat w s.pecTaps.toNat) l
    AnswersAs (exec (.pecCalc l) s) { s with pecr := BitVec.ofNat 16 v.toNat }
      (.pecField (BitVec.ofNat 8 (v.toNat * 2 ^ (16 - w) / 256))
        (BitVec.ofNat 8 (v.toNat * 2 ^ (16 - w))))

/-- 41_pec_engine.md R179: PEC.CHK succeeds where the received field is the computed one, raises
PEC/CRC mismatch (3, 0) where either byte differs, and leaves the vector in PECR either way; nothing
else changes. -/
def Obligations.PecChkComparesBothBytes : Prop :=
  ∀ (s : State) (l : List Byte) (q0 q1 : Byte),
    ([q0, q1] = s.pecBytes l →
      AnswersAs (exec (.pecChk l q0 q1) s) { s with pecr := s.pecOf l } .empty) ∧
    ([q0, q1] ≠ s.pecBytes l →
      RefusedAs (exec (.pecChk l q0 q1) s) { s with pecr := s.pecOf l } 3#4 0#4)

/-- 10_state.md R27, 41_pec_engine.md R177: what PECR held before a command never influences it. Every
instruction but a read of CSR 10 does the same from two states that differ in PECR only. EXEC is compared
under one transport: two runs with the same record of what was sent get the same answer, the model's choice
(log entry 3). -/
def Obligations.OldPecrInfluencesNothing : Prop :=
  ∀ (i : Instr) (s t : State) (p : PecReg), i ≠ .csrRd 10#8 → exec i s = .next t →
    ∃ t', exec i { s with pecr := p } = .next t' ∧ { t' with pecr := t.pecr } = t

/-! ### The frame codec -/

/-- 40_frame.md R139: element k of the n bytes of v is (v >> 8(n-1-k)) and 0xFF; assembling them gives v
back; and the bytes of an assembled list are the list. -/
def Obligations.BigEndianBytesRoundTrip : Prop :=
  ∀ n : Nat, 1 ≤ n → n ≤ 8 →
    (∀ v : DWord, v.toNat < 2 ^ (8 * n) →
      (bytesBe v n).length = n ∧
      (∀ k, k < n → (bytesBe v n)[k]? = some (BitVec.ofNat 8 (v.toNat / 2 ^ (8 * (n - 1 - k))))) ∧
      be (bytesBe v n) = v) ∧
    (∀ l : List Byte, l.length = n → bytesBe (be l) n = l)

/-- 40_frame.md R144: assembly of at most 8 bytes is a number below 2^(8n), one byte more being a shift
by 8 and an OR; three bytes give (b0 << 16) or (b1 << 8) or b2. -/
def Obligations.BigEndianAssembly : Prop :=
  (∀ l : List Byte, l.length ≤ 8 → (be l).toNat < 2 ^ (8 * l.length)) ∧
  (∀ (l : List Byte) (b : Byte), l.length ≤ 7 → (be (l ++ [b])).toNat = (be l).toNat * 256 + b.toNat) ∧
  (∀ b0 b1 b2 : Byte, (be [b0, b1, b2]).toNat = b0.toNat * 2 ^ 16 + b1.toNat * 2 ^ 8 + b2.toNat)

/-- 40_frame.md R130, R131 (ENCODE), 30_encoding.md R92, R93: RD.A and WR.A complete in the encode
walk wherever the bytes fit TXB; they write one control byte and n data bytes at OFS, and nothing
else. (The walks as phases are the model's, log entry 5.) -/
def Obligations.FormatAEncodes : Prop :=
  ∀ (s : State) (a : BitVec 16) (n : BitVec 4) (v : DWord), s.phase = .encode →
    s.ofs.toNat + (1 + n.toNat) ≤ bufmax s.params →
    EncodesAs (exec (.rdA a n v) s) s
      ([BitVec.ofNat 8 (a.toNat % 64 * 4 + 1)] ++ List.replicate n.toNat 0xFF#8) s.pecr ∧
    EncodesAs (exec (.wrA a n v) s) s
      ([BitVec.ofNat 8 (a.toNat % 64 * 4)] ++ digitsOf v.toNat n.toNat) s.pecr

/-- 40_frame.md R132, R133 (ENCODE), 30_encoding.md R94, R95: RD.B and WR.B complete in the encode walk
wherever the bytes fit; they write the control byte made of BUSFMT, the address byte and n data bytes. -/
def Obligations.FormatBEncodes : Prop :=
  ∀ (s : State) (a : BitVec 16) (n : BitVec 4) (v : DWord), s.phase = .encode →
    s.ofs.toNat + (2 + n.toNat) ≤ bufmax s.params →
    EncodesAs (exec (.rdB a n v) s) s
      ([BitVec.ofNat 8 (s.opc.toNat * 16 + s.hwaddr.toNat * 2 + 1), BitVec.ofNat 8 a.toNat]
        ++ List.replicate n.toNat 0xFF#8) s.pecr ∧
    EncodesAs (exec (.wrB a n v) s) s
      ([BitVec.ofNat 8 (s.opc.toNat * 16 + s.hwaddr.toNat * 2), BitVec.ofNat 8 a.toNat]
        ++ digitsOf v.toNat n.toNat) s.pecr

/-- 40_frame.md R134, R135 (ENCODE), R140, 30_encoding.md R96: RD.C and WR.C complete in the encode walk
wherever the bytes fit; they write the command bytes, their PEC, n data bytes and the tail, and leave
the last PEC computed in PECR. -/
def Obligations.FormatCEncodes : Prop :=
  ∀ (s : State) (a : BitVec 16) (n : BitVec 4) (v : DWord), s.phase = .encode →
    s.ofs.toNat + (6 + n.toNat) ≤ bufmax s.params →
    EncodesAs (exec (.rdC a n v) s) s
      ([BitVec.ofNat 8 (a.toNat / 256), BitVec.ofNat 8 a.toNat]
        ++ s.pecBytes [BitVec.ofNat 8 (a.toNat / 256), BitVec.ofNat 8 a.toNat]
        ++ List.replicate n.toNat 0xFF#8 ++ [0xFF#8, 0xFF#8])
      (s.pecOf [BitVec.ofNat 8 (a.toNat / 256), BitVec.ofNat 8 a.toNat]) ∧
    EncodesAs (exec (.wrC a n v) s) s
      ([BitVec.ofNat 8 (a.toNat / 256), BitVec.ofNat 8 a.toNat]
        ++ s.pecBytes [BitVec.ofNat 8 (a.toNat / 256), BitVec.ofNat 8 a.toNat]
        ++ digitsOf v.toNat n.toNat ++ s.pecBytes (digitsOf v.toNat n.toNat))
      (s.pecOf (digitsOf v.toNat n.toNat))

/-- 40_frame.md R130, R131 (PARSE), R146: in the parse walk, on a slice of 1 + n bytes, RD.A and WR.A
deliver the big-endian value of the n data bytes, or raise Framing ECHO (2, 2) where ECHO_CHK is set
and the echo byte is not 0x00. (That FP is at most the number of results that hold a value is log entry 9,
the walks as phases log entry 5, OFS after an abort the model's choice of log entry 13, here and in the
four statements below.) -/
def Obligations.FormatAParses : Prop :=
  ∀ (s : State) (a : BitVec 16) (n : BitVec 4) (v : DWord) (sl : List Byte), s.phase = .parse →
    sl.length = 1 + n.toNat → SliceAt s sl → s.fp.toNat < s.params.qdepth →
    s.fp.toNat ≤ s.res.length →
    ∀ i ∈ [Instr.rdA a n v, Instr.wrA a n v],
      (s.echoChk = true ∧ sl[0]? ≠ some 0x00#8 → AbortsAs (exec i s) s 2#4 2#4 s.pecr) ∧
      (s.echoChk = false ∨ sl[0]? = some 0x00#8 →
        DeliversAs (exec i s) s (valueOf (sl.drop 1)) (1 + n.toNat) s.pecr)

/-- 40_frame.md R132, R133 (PARSE), R146: as format A, with two header bytes (log entries 5, 9 and 13). -/
def Obligations.FormatBParses : Prop :=
  ∀ (s : State) (a : BitVec 16) (n : BitVec 4) (v : DWord) (sl : List Byte), s.phase = .parse →
    sl.length = 2 + n.toNat → SliceAt s sl → s.fp.toNat < s.params.qdepth →
    s.fp.toNat ≤ s.res.length →
    ∀ i ∈ [Instr.rdB a n v, Instr.wrB a n v],
      (s.echoChk = true ∧ sl.take 2 ≠ [0x00#8, 0x00#8] → AbortsAs (exec i s) s 2#4 2#4 s.pecr) ∧
      (s.echoChk = false ∨ sl.take 2 = [0x00#8, 0x00#8] →
        DeliversAs (exec i s) s (valueOf (sl.drop 2)) (2 + n.toNat) s.pecr)

/-- 40_frame.md R134 (PARSE), R146, R148: in the parse walk, on a slice of 6 + n bytes, RD.C first checks
the echo bytes, then computes the PEC of the n data bytes into PECR and compares both bytes of the
received field: it delivers the value, or raises PEC/CRC mismatch (3, 0) (log entries 5, 9 and 13). -/
def Obligations.FormatCReadVerifiesThePec : Prop :=
  ∀ (s : State) (a : BitVec 16) (n : BitVec 4) (v : DWord) (hd dat : List Byte) (q0 q1 : Byte),
    s.phase = .parse → hd.length = 4 → dat.length = n.toNat → SliceAt s (hd ++ dat ++ [q0, q1]) →
    s.fp.toNat < s.params.qdepth → s.fp.toNat ≤ s.res.length →
    (s.echoChk = true ∧ hd ≠ List.replicate 4 0x00#8 →
      AbortsAs (exec (.rdC a n v) s) s 2#4 2#4 s.pecr) ∧
    (s.echoChk = false ∨ hd = List.replicate 4 0x00#8 →
      ([q0, q1] = s.pecBytes dat →
        DeliversAs (exec (.rdC a n v) s) s (valueOf dat) (6 + n.toNat) (s.pecOf dat)) ∧
      ([q0, q1] ≠ s.pecBytes dat →
        AbortsAs (exec (.rdC a n v) s) s 3#4 0#4 (s.pecOf dat)))

/-- 40_frame.md R135 (PARSE), R149: in the parse walk, on a slice of 6 + n bytes, WR.C delivers the value
of the data bytes whatever the two tail bytes are, and computes no PEC (log entries 5, 9 and 13). -/
def Obligations.FormatCWriteIgnoresTheTail : Prop :=
  ∀ (s : State) (a : BitVec 16) (n : BitVec 4) (v : DWord) (hd dat : List Byte) (q0 q1 : Byte),
    s.phase = .parse → hd.length = 4 → dat.length = n.toNat → SliceAt s (hd ++ dat ++ [q0, q1]) →
    s.fp.toNat < s.params.qdepth → s.fp.toNat ≤ s.res.length →
    (s.echoChk = true ∧ hd ≠ List.replicate 4 0x00#8 →
      AbortsAs (exec (.wrC a n v) s) s 2#4 2#4 s.pecr) ∧
    (s.echoChk = false ∨ hd = List.replicate 4 0x00#8 →
      DeliversAs (exec (.wrC a n v) s) s (valueOf dat) (6 + n.toNat) s.pecr)

/-- 40_frame.md R145: a frame operation given fewer than count(d) bytes raises Framing LEN (2, 1). That a
slice can be short only where RXB holds no byte, and that FP stays, is the model's reading
(log entry 14; the walks as phases: log entry 5). -/
def Obligations.ShortSliceRaisesLen : Prop :=
  ∀ (s : State) (f : Frame), s.phase = .parse →
    (∃ k, k < frameCount f ∧ s.rxb.byte (s.ofs.toNat + k) = none) →
    AbortsAs (exec f.instr s) s 2#4 1#4 s.pecr

/-- 40_frame.md, opening ("A frame operation is not issued by the host directly"): outside the walks of
EXEC a frame operation is refused by name. The model's choice of the stop is log entry 8. -/
def Obligations.FrameOutsideExecIsRefused : Prop :=
  ∀ (s : State) (f : Frame), s.phase = .idle ∨ s.phase = .transfer →
    exec f.instr s = .refused .frameOutsideExec

/-- 40_frame.md R134, the corner case of an idle bus (its ground, a padding bit 0 in P1, holds for every
PEC_W below 16): on a slice of all 0xFF, echo bytes unexamined, RD.C always fails its PEC check. (The
walks as phases: log entry 5; OFS after an abort: log entry 13.) -/
def Obligations.IdleBusFailsThePecCheck : Prop :=
  ∀ (s : State) (a : BitVec 16) (n : BitVec 4) (v : DWord), s.params.pecW.val < 16 →
    s.phase = .parse → s.echoChk = false →
    SliceAt s (List.replicate (6 + n.toNat) 0xFF#8) →
    AbortsAs (exec (.rdC a n v) s) s 3#4 0#4 (s.pecOf (List.replicate n.toNat 0xFF#8))

/-- 40_frame.md R151 and R147: under loopback, where a frame's slice is what the frame sent and the echo
bytes are not examined, a legal write delivers its VALUE and a format A or B read delivers
2^(8n) - 1. (The walks as phases, and FP at most the number of results: log entries 5 and 9.) -/
def Obligations.LoopbackRoundTripOfAFrame : Prop :=
  ∀ (s : State) (f : Frame), s.phase = .parse → s.echoChk = false → f.legal = true →
    SliceAt s (frameTx s f) → s.fp.toNat < s.params.qdepth → s.fp.toNat ≤ s.res.length →
    (f.rd = false → DeliversAs (exec f.instr s) s f.value.toNat (frameCount f) s.pecr) ∧
    (f.rd = true → f.fmt ≠ .c →
      DeliversAs (exec f.instr s) s (2 ^ (8 * f.dlen.toNat) - 1) (frameCount f) s.pecr)

/-! ### The batcher -/

/-- 42_batcher.md R200: DQ.PUSH of a legal descriptor, with room, appends it and changes nothing else;
READY plays no part. -/
def Obligations.DqPushAppends : Prop :=
  ∀ (s : State) (w : Word) (d : DWord), descriptorLegal ⟨w, d⟩ = true →
    s.dq.length < s.params.qdepth →
    AnswersAs (exec (.dqPush w d) s) { s with dq := s.dq ++ [⟨w, d⟩] } .empty

/-- 42_batcher.md R201 and R202: an illegal descriptor is refused with ILLEGAL DESC (5, 2), full queue or
not; a legal one on a full queue with STATE QFULL (6, 4); nothing else changes. -/
def Obligations.DqPushRefusals : Prop :=
  ∀ (s : State) (w : Word) (d : DWord),
    (descriptorLegal ⟨w, d⟩ = false → RefusedAs (exec (.dqPush w d) s) s 5#4 2#4) ∧
    (descriptorLegal ⟨w, d⟩ = true → s.dq.length = s.params.qdepth →
      RefusedAs (exec (.dqPush w d) s) s 6#4 4#4)

/-- 42_batcher.md R203: DQ.CLR empties the queue and changes nothing else. -/
def Obligations.DqClrEmptiesTheQueue : Prop :=
  ∀ s : State, AnswersAs (exec .dqClr s) { s with dq := [] } .empty

/-- 42_batcher.md R217: RES.RD answers the result of an index below RESN, and refuses any other with
STATE NORESULT (6, 5); no state but the error record changes. -/
def Obligations.ResRdAnswersOrRefuses : Prop :=
  ∀ (s : State) (i : BitVec 16),
    (∀ v, s.res[i.toNat]? = some v → AnswersAs (exec (.resRd i) s) s (.result v)) ∧
    (s.res.length ≤ i.toNat → RefusedAs (exec (.resRd i) s) s 6#4 5#4)

/-- 42_batcher.md R205: while READY = 0, EXEC is refused with STATE NOTREADY (6, 1): no transfer, and
nothing but ERR and ESUB changes. -/
def Obligations.ExecNeedsReady : Prop :=
  ∀ s : State, s.ready = false → RefusedAs (exec .exec s) s 6#4 1#4

/-- 42_batcher.md R206 and R208: every EXEC that passes the READY check makes exactly one transfer, of the
frames' bytes in queue order with nothing between them, and leaves them in TXB with their number in
TXN, whatever XPORT answers. -/
def Obligations.ExecMakesOneTransferOfTheQueue : Prop :=
  ∀ s : State, s.Inv → s.ready = true →
    ∃ t, exec .exec s = .next t ∧
      t.bus = s.bus.afterTransfer (queueTx s) ∧
      t.txb = Memory.cells 0 (queueTx s) ∧ t.txn.toNat = (queueTx s).length ∧
      (queueTx s).length = ((queueFrames s).map frameCount).sum ∧
      (queueFrames s).length = s.dq.length

/-- 42_batcher.md R208: no other instruction ever calls Transfer. -/
def Obligations.OnlyExecTransfers : Prop :=
  ∀ (i : Instr) (s t : State), i ≠ .exec → exec i s = .next t → t.bus = s.bus

/-- 42_batcher.md R215 and R216: where XPORT answers ioerror, EXEC aborts with (4, 0): RXN = 0, FP = 0, no
result, DONE clear, the queue empty. (OFS after an abort, and RXB holding nothing: the model's choice, log
entry 13.) -/
def Obligations.ExecAbortsOnTransportError : Prop :=
  ∀ s : State, s.Inv → s.ready = true → s.bus.answer (queueTx s) = .ioerror →
    exec .exec s = .next
      (execAborted { execSent s with rxb := [], rxn := 0#32 } 0 (queueTx s).length 4#4 0#4)

/-- 42_batcher.md R209, R213 and R216: where the answer's length is not TXN, shorter or longer, EXEC
aborts with (2, 1) before any frame is parsed: FP = 0, RXN the true length, RXB at most BUFMAX bytes. RXN
alone is left open where 32 bits cannot hold the length (log entry 10, the model's choice). (OFS after an
abort: the model's choice, log entry 13.) -/
def Obligations.ExecAbortsOnLengthMismatch : Prop :=
  ∀ (s : State) (rx : List Byte), s.Inv → s.ready = true → s.bus.answer (queueTx s) = .ok rx →
    rx.length ≠ (queueTx s).length →
    ∃ rxn : Word, (rx.length < 2 ^ 32 → rxn.toNat = rx.length) ∧
      exec .exec s = .next
        (execAborted { execSent s with rxb := Memory.cells 0 (rx.take (bufmax s.params)), rxn := rxn }
          0 (queueTx s).length 2#4 1#4)

/-- 42_batcher.md R210 to R212: where the answer has the right length and every slice parses, EXEC
succeeds: RES holds the results in queue order, RESN = FP = N, DONE = 1, the queue is empty, and the
error record is as it was. (OFS after a success: the model's choice, log entry 13.) -/
def Obligations.ExecDeliversAllResultsInOrder : Prop :=
  ∀ (s : State) (rx : List Byte) (vs : List DWord), s.Inv → s.ready = true →
    s.bus.answer (queueTx s) = .ok rx → rx.length = (queueTx s).length →
    parseQueue s (queueFrames s) rx = .ok vs →
    vs.length = s.dq.length ∧
    AnswersAs (exec .exec s)
      { execSent s with
        res := vs, done := true, dq := [], phase := .idle
        fp := BitVec.ofNat 16 vs.length, ofs := BitVec.ofNat 32 rx.length
        rxb := Memory.cells 0 rx, rxn := BitVec.ofNat 32 rx.length
        pecr := parsePecr s (execSent s).pecr (queueFrames s) rx } .empty

/-- 42_batcher.md R210, R213, R214 and R216: where the answer has the right length and frame i is the
first whose PARSE raises, EXEC aborts with that error: FP = i, no result at all, DONE clear, the queue
empty. (OFS after an abort: the model's choice, log entry 13.) -/
def Obligations.ExecAbortsAtTheFirstBadFrame : Prop :=
  ∀ (s : State) (rx : List Byte) (i : Nat) (e : ErrorKind), s.Inv → s.ready = true →
    s.bus.answer (queueTx s) = .ok rx → rx.length = (queueTx s).length →
    parseQueue s (queueFrames s) rx = .error (i, e) →
    i < s.dq.length ∧ (e = .framingEcho ∨ e = .pecMismatch) ∧
    exec .exec s = .next
      (execAborted { execSent s with
        rxb := Memory.cells 0 rx, rxn := BitVec.ofNat 32 rx.length
        pecr := parsePecr s (execSent s).pecr (queueFrames s) rx }
        i (((queueFrames s).take i).map frameCount).sum
        (if e = .framingEcho then 2#4 else 3#4) (if e = .framingEcho then 2#4 else 0#4))

/-- 20_memory.md R67, 70_reset_and_hazards.md R325: where XPORT never answers, EXEC does not complete: the
bytes are handed over, no response is made, and the command stays in progress. (How the model holds this:
log entries 5 and 13.) -/
def Obligations.ExecWaitsForAnUnansweredTransfer : Prop :=
  ∀ s : State, s.Inv → s.ready = true → s.bus.answer (queueTx s) = .never →
    exec .exec s = .next { execSent s with
      fp := BitVec.ofNat 16 s.dq.length, ofs := BitVec.ofNat 32 (queueTx s).length
      phase := .transfer, host := { s.host with response := none } }

/-- 42_batcher.md R218: EXEC of an empty queue makes one transfer, of the empty list, whatever XPORT answers;
it succeeds with no result if the answer is empty, and raises Framing LEN (2, 1) if it is not. -/
def Obligations.ExecOfAnEmptyQueue : Prop :=
  ∀ s : State, s.Inv → s.ready = true → s.dq = [] →
    ∃ t, exec .exec s = .next t ∧ t.bus = s.bus.afterTransfer [] ∧ t.txn = 0#32 ∧ t.txb = [] ∧
      ∀ rx : List Byte, s.bus.answer [] = .ok rx →
        t.resn = 0#16 ∧ t.fp = 0#16 ∧
        (rx = [] → t.done = true ∧ t.rxn = 0#32 ∧ t.err = s.err ∧ t.esub = s.esub ∧
          t.host.response = some { err := 0#4, esub := 0#4, payload := .empty }) ∧
        (rx ≠ [] → t.done = false ∧ t.err = 2#4 ∧ t.esub = 1#4 ∧
          t.host.response = some { err := 2#4, esub := 1#4, payload := .empty })

/-- 40_frame.md R151 through a whole transaction (95_test_vectors.md S7): with the echo bytes unexamined
and a transport that loops back, a queue of write frames gives back every VALUE, in order. -/
def Obligations.LoopbackExecReturnsTheWrittenValues : Prop :=
  ∀ s : State, s.Inv → s.ready = true → s.echoChk = false →
    (∀ f ∈ queueFrames s, f.rd = false) → s.bus.answer (queueTx s) = .ok (queueTx s) →
    ∃ t, exec .exec s = .next t ∧ t.done = true ∧ t.res = (queueFrames s).map Frame.value ∧
      t.dq = [] ∧ t.err = s.err ∧ t.esub = s.esub

/-- 30_encoding.md R116: READ.f and WRITE.f of a legal frame make exactly one transfer on a validated
bus, of that one frame's bytes, whatever the queue held before. -/
def Obligations.PseudoOperationsMakeOneTransfer : Prop :=
  ∀ (s : State) (f : Frame), s.Inv → s.ready = true → f.legal = true → (f.rd = true → f.value = 0#64) →
    ∃ t, runSequence
        (if f.rd then readOp f.fmt f.addr f.dlen else writeOp f.fmt f.addr f.dlen f.value) s = .next t ∧
      t.bus = s.bus.afterTransfer (frameTx s f)

/-! ### Host control -/

/-- 43_host_control.md R241, 10_state.md R31 to R41: CSR.RD of each register 0 to 10 answers its fields at
their places and zeros elsewhere, PEC_W bits of the engine's three, and changes nothing. -/
def Obligations.CsrRdAnswersEachRegister : Prop :=
  ∀ s : State,
    AnswersAs (exec (.csrRd 0#8) s) s (.word (BitVec.ofNat 32
      (s.ready.toNat + 2 * s.done.toNat + 4 * s.warn.toNat + 16 * s.err.toNat + 256 * s.esub.toNat))) ∧
    AnswersAs (exec (.csrRd 1#8) s) s (.word (BitVec.ofNat 32 s.fp.toNat)) ∧
    AnswersAs (exec (.csrRd 2#8) s) s (.word (BitVec.ofNat 32 s.echoChk.toNat)) ∧
    AnswersAs (exec (.csrRd 3#8) s) s (.word (BitVec.ofNat 32 (s.pecSeed.toNat % 2 ^ s.params.pecW.val))) ∧
    AnswersAs (exec (.csrRd 4#8) s) s (.word (BitVec.ofNat 32 (s.pecTaps.toNat % 2 ^ s.params.pecW.val))) ∧
    AnswersAs (exec (.csrRd 5#8) s) s (.word (BitVec.ofNat 32 (2 * s.hwaddr.toNat + 16 * s.opc.toNat))) ∧
    AnswersAs (exec (.csrRd 6#8) s) s (.word (BitVec.ofNat 32 (s.dq.length % 65536))) ∧
    AnswersAs (exec (.csrRd 7#8) s) s (.word (BitVec.ofNat 32 (s.res.length % 65536))) ∧
    AnswersAs (exec (.csrRd 8#8) s) s (.word s.txn) ∧
    AnswersAs (exec (.csrRd 9#8) s) s (.word s.rxn) ∧
    AnswersAs (exec (.csrRd 10#8) s) s (.word (BitVec.ofNat 32 (s.pecr.toNat % 2 ^ s.params.pecW.val)))

/-- 10_state.md R42: CSR.RD or CSR.WR with a number from 11 to 255 raises ILLEGAL (5, 3) and changes
nothing else. -/
def Obligations.UnimplementedCsrNumbersAreIllegal : Prop :=
  ∀ (s : State) (k : BitVec 8) (v : Word), 11 ≤ k.toNat →
    RefusedAs (exec (.csrRd k) s) s 5#4 3#4 ∧ RefusedAs (exec (.csrWr k v) s) s 5#4 3#4

/-- 43_host_control.md R242, 10_state.md R33 to R36: while READY = 0, CSR.WR writes CTRL, PEC_SEED,
PEC_TAPS (bit 0 kept at 1) or BUSFMT, ignoring the reserved bits, and nothing else. -/
def Obligations.CsrWrWritesTheConfiguration : Prop :=
  ∀ (s : State) (v : Word), s.ready = false →
    AnswersAs (exec (.csrWr 2#8 v) s) { s with echoChk := v.getLsbD 0 } .empty ∧
    AnswersAs (exec (.csrWr 3#8 v) s)
      { s with pecSeed := BitVec.ofNat 16 (v.toNat % 2 ^ s.params.pecW.val) } .empty ∧
    AnswersAs (exec (.csrWr 4#8 v) s)
      { s with pecTaps := BitVec.ofNat 16 ((v.toNat / 2 * 2 + 1) % 2 ^ s.params.pecW.val) } .empty ∧
    AnswersAs (exec (.csrWr 5#8 v) s)
      { s with opc := BitVec.ofNat 4 (v.toNat / 16), hwaddr := BitVec.ofNat 3 (v.toNat / 2) } .empty

/-- 10_state.md R30, R43, 43_host_control.md R242: CSR.WR of a read-only register is refused with STATE
RO (6, 3), READY or not; of CSR 2 to 5 while READY = 1 with STATE LOCKED (6, 2). -/
def Obligations.CsrWrRefusals : Prop :=
  ∀ (s : State) (k : BitVec 8) (v : Word),
    (k.toNat ∈ [0, 1, 6, 7, 8, 9, 10] → RefusedAs (exec (.csrWr k v) s) s 6#4 3#4) ∧
    (k.toNat ∈ [2, 3, 4, 5] → s.ready = true → RefusedAs (exec (.csrWr k v) s) s 6#4 2#4)

/-- 43_host_control.md R243, R245 to R247: INIT of a configuration that meets all four requirements
succeeds: READY becomes 1, WARN becomes 1 if EXTRA_FLAGS is not the default, nothing else changes. -/
def Obligations.InitSucceedsOnASupportedBus : Prop :=
  ∀ (s : State) (b m x : Word), s.ready = false →
    b.toNat / 65536 = 0 → b.toNat / 8 % 32 = 0 →
    s.params.supportedModes.getLsbD (b.toNat % 4) = true →
    s.params.speedMin ≤ m.toNat → m.toNat ≤ s.params.speedMax →
    b.getLsbD 2 = false → b.toNat / 256 % 256 = 8 →
    AnswersAs (exec (.init b m x) s)
      { s with ready := true, warn := s.warn || decide (x ≠ 0#32) } .empty

/-- 43_host_control.md R244, R245, R247, 60_exceptions.md R270: the first requirement that fails, in the
order mode, speed, bit order, word size, gives the subcode; READY stays 0, WARN is set if due. -/
def Obligations.InitReportsTheFirstFailingCheck : Prop :=
  ∀ (s : State) (b m x : Word), s.ready = false →
    b.toNat / 65536 = 0 → b.toNat / 8 % 32 = 0 →
    let w := { s with warn := s.warn || decide (x ≠ 0#32) }
    let modeOk := s.params.supportedModes.getLsbD (b.toNat % 4) = true
    let speedOk := s.params.speedMin ≤ m.toNat ∧ m.toNat ≤ s.params.speedMax
    let orderOk := b.getLsbD 2 = false
    (¬modeOk → RefusedAs (exec (.init b m x) s) w 1#4 1#4) ∧
    (modeOk ∧ ¬speedOk → RefusedAs (exec (.init b m x) s) w 1#4 2#4) ∧
    (modeOk ∧ speedOk ∧ ¬orderOk → RefusedAs (exec (.init b m x) s) w 1#4 3#4) ∧
    (modeOk ∧ speedOk ∧ orderOk ∧ b.toNat / 256 % 256 ≠ 8 →
      RefusedAs (exec (.init b m x) s) w 1#4 4#4)

/-- 43_host_control.md R249: INIT while READY = 1 is refused with STATE ALREADY (6, 6) and changes nothing
else, WARN included. (A nonzero reserved BUSCFG bit is ILLEGAL CMD first, R281.) -/
def Obligations.InitWhileReadyIsRefused : Prop :=
  ∀ (s : State) (b m x : Word), s.ready = true →
    b.toNat / 65536 = 0 → b.toNat / 8 % 32 = 0 → RefusedAs (exec (.init b m x) s) s 6#4 6#4

/-- 43_host_control.md R248: ERR.CLR clears ERR, ESUB and WARN and nothing else. -/
def Obligations.ErrClrClearsTheRecord : Prop :=
  ∀ s : State, AnswersAs (exec .errClr s) { s with err := 0#4, esub := 0#4, warn := false } .empty

/-! ### Rules of the whole machine -/

/-- 10_state.md R43: while READY = 1 no instruction but RESET changes CTRL, PEC_SEED, PEC_TAPS or BUSFMT,
and no instruction but RESET clears READY. 41_pec_engine.md R181, 10_state.md R45: no instruction at all
changes PEC_W or another parameter. -/
def Obligations.ConfigurationIsLockedWhileReady : Prop :=
  (∀ (i : Instr) (s t : State), s.ready = true → i ≠ .reset → exec i s = .next t →
    t.ready = true ∧ t.echoChk = s.echoChk ∧ t.pecSeed = s.pecSeed ∧ t.pecTaps = s.pecTaps ∧
    t.opc = s.opc ∧ t.hwaddr = s.hwaddr) ∧
  (∀ (i : Instr) (s t : State), exec i s = .next t → t.params = s.params)

/-- 10_state.md R26: who may change each flag. READY: INIT and RESET. DONE: EXEC and RESET (a frame
operation's abort is EXEC's). WARN: INIT, ERR.CLR and RESET. -/
def Obligations.FlagsChangeOnlyAsListed : Prop :=
  ∀ (i : Instr) (s t : State), isCommand i = true → exec i s = .next t →
    (t.ready ≠ s.ready → (∃ b m x, i = .init b m x) ∨ i = .reset) ∧
    (t.done ≠ s.done → i = .exec ∨ i = .reset) ∧
    (t.warn ≠ s.warn → (∃ b m x, i = .init b m x) ∨ i = .errClr ∨ i = .reset)

/-- 30_encoding.md R111, 60_exceptions.md R275, R286: a command that is answered with an error has the
response's pair in STATUS, the pair is one of the table, and there is no payload; one that is answered
with success leaves the error record as it was, but for ERR.CLR and RESET. -/
def Obligations.ResponseAgreesWithTheErrorRecord : Prop :=
  ∀ (i : Instr) (s t : State) (r : Response), isCommand i = true → exec i s = .next t →
    t.host.response = some r →
    (r.err ≠ 0#4 → t.err = r.err ∧ t.esub = r.esub ∧ r.payload = .empty ∧
      (r.err.toNat, r.esub.toNat) ∈ [(1, 1), (1, 2), (1, 3), (1, 4), (2, 1), (2, 2), (3, 0), (4, 0),
        (5, 1), (5, 2), (5, 3), (6, 1), (6, 2), (6, 3), (6, 4), (6, 5), (6, 6)]) ∧
    (r.err = 0#4 → r.esub = 0#4 ∧
      (i ≠ .errClr → i ≠ .reset → t.err = s.err ∧ t.esub = s.esub))

/-- 60_exceptions.md R287: after a command that ends in ILLEGAL, STATE, CONFIG (WARN apart) or a PEC.CHK
mismatch (PECR apart), all state other than STATUS.ERR and STATUS.ESUB is what it was before. -/
def Obligations.ErrorsArePrecise : Prop :=
  ∀ (i : Instr) (s t : State) (r : Response), isCommand i = true → exec i s = .next t →
    t.host.response = some r →
    (r.err = 1#4 ∨ r.err = 5#4 ∨ r.err = 6#4 ∨ (r.err = 3#4 ∧ i ≠ .exec)) →
    t = { s with
      err := r.err, esub := r.esub
      warn := if r.err = 1#4 then t.warn else s.warn
      pecr := if r.err = 3#4 then t.pecr else s.pecr
      host := { s.host with response := some r } }

/-- 10_state.md R26, 43_host_control.md R248: no command's behaviour depends on ERR, ESUB or WARN. Every
instruction but a read of STATUS does the same from two states that differ in them only. EXEC is compared
under one transport: two runs with the same record of what was sent get the same answer, the model's choice
(log entry 3). -/
def Obligations.ErrorRecordInfluencesNothing : Prop :=
  ∀ (i : Instr) (s t : State) (e u : BitVec 4) (w : Bool), i ≠ .csrRd 0#8 → exec i s = .next t →
    ∃ t', exec i { s with err := e, esub := u, warn := w } = .next t' ∧
      { t' with err := t.err, esub := t.esub, warn := t.warn } = t
end

