-- ==== Sys2Proof/Laws/Memory.lean ====
section
/-! SUPPORT. The buffers: read after write, and the canonical form that every buffer operation keeps. -/

namespace Sys2Proof.Laws

open Sys2Proof.Machine

@[simp] theorem cells_length (a : Nat) (l : List Byte) : (Memory.cells a l).length = l.length := by
  induction l generalizing a with
  | nil => rfl
  | cons b bs ih => simp [Memory.cells, ih]

@[simp] theorem cells_map_snd (a : Nat) (l : List Byte) : (Memory.cells a l).map Prod.snd = l := by
  induction l generalizing a with
  | nil => rfl
  | cons b bs ih => simp [Memory.cells, ih]

theorem cells_append (a : Nat) (l r : List Byte) :
    Memory.cells a (l ++ r) = Memory.cells a l ++ Memory.cells (a + l.length) r := by
  induction l generalizing a with
  | nil => simp [Memory.cells]
  | cons b bs ih =>
    simp only [List.cons_append, Memory.cells, ih, List.length_cons]
    rw [show a + 1 + bs.length = a + (bs.length + 1) by omega]

theorem mem_cells_bounds {a : Nat} {l : List Byte} {c : Host.Cell} (h : c ∈ Memory.cells a l) :
    a ≤ c.1 ∧ c.1 < a + l.length := by
  induction l generalizing a with
  | nil => simp [Memory.cells] at h
  | cons b bs ih =>
    rcases List.mem_cons.mp h with rfl | h
    · simp
    · have := ih h
      simp only [List.length_cons]
      omega

/-- The byte at offset `k` of a byte list stored from offset `a`. -/
theorem byte_cells (a k : Nat) (l : List Byte) :
    (Memory.cells a l).byte k = if a ≤ k then l[k - a]? else none := by
  induction l generalizing a with
  | nil => simp [Memory.cells, Memory.byte]
  | cons b bs ih =>
    simp only [Memory.byte, Memory.cells, List.lookup_cons] at ih ⊢
    rcases Nat.lt_trichotomy k a with h | rfl | h
    · rw [if_neg (by omega), show (k == a) = false by simp; omega]
      simpa [show ¬ a + 1 ≤ k by omega] using ih (a + 1)
    · simp
    · rw [show (k == a) = false by simp; omega, if_pos (by omega)]
      have : k - a = (k - (a + 1)) + 1 := by omega
      simp only [this, List.getElem?_cons_succ]
      simpa [show a + 1 ≤ k by omega] using ih (a + 1)

/-- A filter on offsets keeps the bytes at the offsets it takes. -/
theorem byte_filter (m : Memory) (p : Nat → Bool) (k : Nat) :
    Memory.byte (m.filter (fun c => p c.1)) k = if p k then m.byte k else none := by
  simp only [Memory.byte]
  induction m with
  | nil => simp
  | cons c cs ih =>
    obtain ⟨x, b⟩ := c
    by_cases hk : k = x
    · subst hk
      cases hp : p k
      · simpa [hp] using ih
      · simp [hp]
    · have hb : (k == x) = false := by simpa using hk
      cases hp : p x <;> simp [List.lookup_cons, hp, hb, ih]

theorem byte_append (l r : Memory) (k : Nat) :
    Memory.byte (l ++ r) k = (l.byte k).or (r.byte k) := by
  simp only [Memory.byte, List.lookup_append]

/-- Read after write: the bytes written read as written, every other byte as before. -/
theorem byte_memWrite (m : Memory) (a k : Nat) (v : List Byte) :
    (memWrite m a v).byte k =
      if a ≤ k ∧ k < a + v.length then v[k - a]? else m.byte k := by
  rw [memWrite, byte_append, byte_append, byte_filter m (fun x => decide (x < a)),
    byte_filter m (fun x => decide (a + v.length ≤ x)), byte_cells]
  by_cases h1 : k < a
  · simp [h1, show ¬ a ≤ k by omega, show ¬ a + v.length ≤ k by omega]
  · by_cases h2 : k < a + v.length
    · simp [h1, show a ≤ k by omega, h2, show ¬ a + v.length ≤ k by omega]
    · have : v[k - a]? = none := by simp; omega
      simp [h1, show a ≤ k by omega, h2, show a + v.length ≤ k by omega, this]

/-- A byte list stored from an offset is in canonical form. -/
theorem cells_wf (a : Nat) (l : List Byte) : (Memory.cells a l).wf := by
  induction l generalizing a with
  | nil => exact List.Pairwise.nil
  | cons b bs ih =>
    refine List.Pairwise.cons (fun c hc => ?_) (ih (a + 1))
    have := mem_cells_bounds hc
    simp only
    omega

/-- A write keeps the canonical form. -/
theorem memWrite_wf {m : Memory} (h : m.wf) (a : Nat) (v : List Byte) : (memWrite m a v).wf := by
  have hc := cells_wf a v
  rw [Memory.wf, memWrite, List.pairwise_append, List.pairwise_append]
  refine ⟨⟨h.filter _, hc, ?_⟩, h.filter _, ?_⟩
  · intro c hcm d hdm
    have h1 := (List.mem_filter.mp hcm).2
    have h2 := mem_cells_bounds hdm
    simp only [decide_eq_true_eq] at h1
    omega
  · intro c hcm d hdm
    have h2 := (List.mem_filter.mp hdm).2
    simp only [decide_eq_true_eq] at h2
    rcases List.mem_append.mp hcm with hcm | hcm
    · have h1 := (List.mem_filter.mp hcm).2
      simp only [decide_eq_true_eq] at h1
      omega
    · have h1 := mem_cells_bounds hcm
      omega

/-- The buffers of the reset state are in canonical form. -/
theorem reset_buffers_wf : State.reset.txb.wf ∧ State.reset.rxb.wf :=
  ⟨List.Pairwise.nil, List.Pairwise.nil⟩

/-- Writing where a gapless buffer ends appends (42_batcher.md R206: contiguous frames). -/
theorem memWrite_cells_end (l v : List Byte) :
    memWrite (Memory.cells 0 l) l.length v = Memory.cells 0 (l ++ v) := by
  have h1 : (Memory.cells 0 l).filter (fun c => decide (c.1 < l.length)) = Memory.cells 0 l := by
    rw [List.filter_eq_self]
    intro c hc
    have := mem_cells_bounds hc
    simp only [decide_eq_true_eq]
    omega
  have h2 : (Memory.cells 0 l).filter (fun c => decide (l.length + v.length ≤ c.1)) = [] := by
    rw [List.filter_eq_nil_iff]
    intro c hc
    have := mem_cells_bounds hc
    simp only [decide_eq_true_eq]
    omega
  rw [memWrite, h1, h2, cells_append]
  simp

/-- Reading a gapless buffer takes the bytes of its list. -/
theorem memRead_cells (l : List Byte) (a n : Nat) :
    memRead (Memory.cells 0 l) a n = (l.drop a).take n := by
  have h : ∀ k, (Memory.cells 0 l).byte (a + k) = (l.drop a)[k]? := by
    intro k
    rw [byte_cells]
    simp
  simp only [memRead, h]
  generalize l.drop a = r
  induction r generalizing n with
  | nil => simp
  | cons b bs ih =>
    cases n with
    | zero => simp
    | succ n =>
      rw [List.range_succ_eq_map, List.filterMap_cons]
      simp [List.filterMap_map, ih n]

/-- Reading bytes that are all there gives them in order. -/
theorem memRead_of_bytes {m : Memory} {a : Nat} {l : List Byte}
    (h : ∀ k, k < l.length → m.byte (a + k) = l[k]?) : memRead m a l.length = l := by
  have : memRead m a l.length = memRead (Memory.cells 0 l) 0 l.length := by
    simp only [memRead]
    refine List.filterMap_congr (fun k hk => ?_)
    rw [h k (List.mem_range.mp hk), byte_cells]
    simp
  rw [this, memRead_cells]
  simp

theorem memRead_length_le (m : Memory) (a n : Nat) : (memRead m a n).length ≤ n := by
  refine le_trans (List.length_filterMap_le _ _) ?_
  simp

end Sys2Proof.Laws
end

