-- ==== Sys2Proof/Laws/State.lean ====
section
/-! SUPPORT. One lemma per field per update of State, so that no proof unfolds a record update. -/

namespace Sys2Proof.Laws

open Sys2Proof.Machine

variable (s : State)

@[simp] theorem respond_res (p : Payload) : (respond p s).res = s.res := rfl
@[simp] theorem respond_fp (p : Payload) : (respond p s).fp = s.fp := rfl
@[simp] theorem respond_ofs (p : Payload) : (respond p s).ofs = s.ofs := rfl
@[simp] theorem respond_ready (p : Payload) : (respond p s).ready = s.ready := rfl
@[simp] theorem respond_done (p : Payload) : (respond p s).done = s.done := rfl
@[simp] theorem respond_warn (p : Payload) : (respond p s).warn = s.warn := rfl
@[simp] theorem respond_err (p : Payload) : (respond p s).err = s.err := rfl
@[simp] theorem respond_esub (p : Payload) : (respond p s).esub = s.esub := rfl
@[simp] theorem respond_echoChk (p : Payload) : (respond p s).echoChk = s.echoChk := rfl
@[simp] theorem respond_pecSeed (p : Payload) : (respond p s).pecSeed = s.pecSeed := rfl
@[simp] theorem respond_pecTaps (p : Payload) : (respond p s).pecTaps = s.pecTaps := rfl
@[simp] theorem respond_opc (p : Payload) : (respond p s).opc = s.opc := rfl
@[simp] theorem respond_hwaddr (p : Payload) : (respond p s).hwaddr = s.hwaddr := rfl
@[simp] theorem respond_dq (p : Payload) : (respond p s).dq = s.dq := rfl
@[simp] theorem respond_txb (p : Payload) : (respond p s).txb = s.txb := rfl
@[simp] theorem respond_txn (p : Payload) : (respond p s).txn = s.txn := rfl
@[simp] theorem respond_rxb (p : Payload) : (respond p s).rxb = s.rxb := rfl
@[simp] theorem respond_rxn (p : Payload) : (respond p s).rxn = s.rxn := rfl
@[simp] theorem respond_pecr (p : Payload) : (respond p s).pecr = s.pecr := rfl
@[simp] theorem respond_phase (p : Payload) : (respond p s).phase = s.phase := rfl
@[simp] theorem respond_params (p : Payload) : (respond p s).params = s.params := rfl
@[simp] theorem respond_host (p : Payload) :
    (respond p s).host = { s.host with response := some { err := 0#4, esub := 0#4, payload := p } } :=
  rfl
@[simp] theorem respond_bus (p : Payload) : (respond p s).bus = s.bus := rfl

@[simp] theorem raise_res (e : ErrorKind) : (raise e s).res = s.res := rfl
@[simp] theorem raise_fp (e : ErrorKind) : (raise e s).fp = s.fp := rfl
@[simp] theorem raise_ofs (e : ErrorKind) : (raise e s).ofs = s.ofs := rfl
@[simp] theorem raise_ready (e : ErrorKind) : (raise e s).ready = s.ready := rfl
@[simp] theorem raise_done (e : ErrorKind) : (raise e s).done = s.done := rfl
@[simp] theorem raise_warn (e : ErrorKind) : (raise e s).warn = s.warn := rfl
@[simp] theorem raise_err (e : ErrorKind) : (raise e s).err = e.code := rfl
@[simp] theorem raise_esub (e : ErrorKind) : (raise e s).esub = e.sub := rfl
@[simp] theorem raise_echoChk (e : ErrorKind) : (raise e s).echoChk = s.echoChk := rfl
@[simp] theorem raise_pecSeed (e : ErrorKind) : (raise e s).pecSeed = s.pecSeed := rfl
@[simp] theorem raise_pecTaps (e : ErrorKind) : (raise e s).pecTaps = s.pecTaps := rfl
@[simp] theorem raise_opc (e : ErrorKind) : (raise e s).opc = s.opc := rfl
@[simp] theorem raise_hwaddr (e : ErrorKind) : (raise e s).hwaddr = s.hwaddr := rfl
@[simp] theorem raise_dq (e : ErrorKind) : (raise e s).dq = s.dq := rfl
@[simp] theorem raise_txb (e : ErrorKind) : (raise e s).txb = s.txb := rfl
@[simp] theorem raise_txn (e : ErrorKind) : (raise e s).txn = s.txn := rfl
@[simp] theorem raise_rxb (e : ErrorKind) : (raise e s).rxb = s.rxb := rfl
@[simp] theorem raise_rxn (e : ErrorKind) : (raise e s).rxn = s.rxn := rfl
@[simp] theorem raise_pecr (e : ErrorKind) : (raise e s).pecr = s.pecr := rfl
@[simp] theorem raise_phase (e : ErrorKind) : (raise e s).phase = s.phase := rfl
@[simp] theorem raise_params (e : ErrorKind) : (raise e s).params = s.params := rfl
@[simp] theorem raise_host (e : ErrorKind) :
    (raise e s).host = { s.host with response := some { err := e.code, esub := e.sub, payload := .empty } } :=
  rfl
@[simp] theorem raise_bus (e : ErrorKind) : (raise e s).bus = s.bus := rfl

@[simp] theorem abort_res (e : ErrorKind) : (abort e s).res = [] := rfl
@[simp] theorem abort_fp (e : ErrorKind) : (abort e s).fp = s.fp := rfl
@[simp] theorem abort_ofs (e : ErrorKind) : (abort e s).ofs = s.ofs := rfl
@[simp] theorem abort_ready (e : ErrorKind) : (abort e s).ready = s.ready := rfl
@[simp] theorem abort_done (e : ErrorKind) : (abort e s).done = false := rfl
@[simp] theorem abort_warn (e : ErrorKind) : (abort e s).warn = s.warn := rfl
@[simp] theorem abort_err (e : ErrorKind) : (abort e s).err = e.code := rfl
@[simp] theorem abort_esub (e : ErrorKind) : (abort e s).esub = e.sub := rfl
@[simp] theorem abort_echoChk (e : ErrorKind) : (abort e s).echoChk = s.echoChk := rfl
@[simp] theorem abort_pecSeed (e : ErrorKind) : (abort e s).pecSeed = s.pecSeed := rfl
@[simp] theorem abort_pecTaps (e : ErrorKind) : (abort e s).pecTaps = s.pecTaps := rfl
@[simp] theorem abort_opc (e : ErrorKind) : (abort e s).opc = s.opc := rfl
@[simp] theorem abort_hwaddr (e : ErrorKind) : (abort e s).hwaddr = s.hwaddr := rfl
@[simp] theorem abort_dq (e : ErrorKind) : (abort e s).dq = [] := rfl
@[simp] theorem abort_txb (e : ErrorKind) : (abort e s).txb = s.txb := rfl
@[simp] theorem abort_txn (e : ErrorKind) : (abort e s).txn = s.txn := rfl
@[simp] theorem abort_rxb (e : ErrorKind) : (abort e s).rxb = s.rxb := rfl
@[simp] theorem abort_rxn (e : ErrorKind) : (abort e s).rxn = s.rxn := rfl
@[simp] theorem abort_pecr (e : ErrorKind) : (abort e s).pecr = s.pecr := rfl
@[simp] theorem abort_phase (e : ErrorKind) : (abort e s).phase = .idle := rfl
@[simp] theorem abort_params (e : ErrorKind) : (abort e s).params = s.params := rfl
@[simp] theorem abort_host (e : ErrorKind) :
    (abort e s).host = { s.host with response := some { err := e.code, esub := e.sub, payload := .empty } } :=
  rfl
@[simp] theorem abort_bus (e : ErrorKind) : (abort e s).bus = s.bus := rfl

@[simp] theorem complete_res : (complete s).res = s.res.take s.dq.length := rfl
@[simp] theorem complete_fp : (complete s).fp = s.fp := rfl
@[simp] theorem complete_ofs : (complete s).ofs = s.ofs := rfl
@[simp] theorem complete_ready : (complete s).ready = s.ready := rfl
@[simp] theorem complete_done : (complete s).done = true := rfl
@[simp] theorem complete_warn : (complete s).warn = s.warn := rfl
@[simp] theorem complete_err : (complete s).err = s.err := rfl
@[simp] theorem complete_esub : (complete s).esub = s.esub := rfl
@[simp] theorem complete_echoChk : (complete s).echoChk = s.echoChk := rfl
@[simp] theorem complete_pecSeed : (complete s).pecSeed = s.pecSeed := rfl
@[simp] theorem complete_pecTaps : (complete s).pecTaps = s.pecTaps := rfl
@[simp] theorem complete_opc : (complete s).opc = s.opc := rfl
@[simp] theorem complete_hwaddr : (complete s).hwaddr = s.hwaddr := rfl
@[simp] theorem complete_dq : (complete s).dq = [] := rfl
@[simp] theorem complete_txb : (complete s).txb = s.txb := rfl
@[simp] theorem complete_txn : (complete s).txn = s.txn := rfl
@[simp] theorem complete_rxb : (complete s).rxb = s.rxb := rfl
@[simp] theorem complete_rxn : (complete s).rxn = s.rxn := rfl
@[simp] theorem complete_pecr : (complete s).pecr = s.pecr := rfl
@[simp] theorem complete_phase : (complete s).phase = .idle := rfl
@[simp] theorem complete_params : (complete s).params = s.params := rfl
@[simp] theorem complete_host :
    (complete s).host = { s.host with response := some { err := 0#4, esub := 0#4, payload := .empty } } :=
  rfl
@[simp] theorem complete_bus : (complete s).bus = s.bus := rfl

@[simp] theorem beginEncode_res : (beginEncode s).res = s.res := rfl
@[simp] theorem beginEncode_fp : (beginEncode s).fp = 0#16 := rfl
@[simp] theorem beginEncode_ofs : (beginEncode s).ofs = 0#32 := rfl
@[simp] theorem beginEncode_ready : (beginEncode s).ready = s.ready := rfl
@[simp] theorem beginEncode_done : (beginEncode s).done = s.done := rfl
@[simp] theorem beginEncode_warn : (beginEncode s).warn = s.warn := rfl
@[simp] theorem beginEncode_err : (beginEncode s).err = s.err := rfl
@[simp] theorem beginEncode_esub : (beginEncode s).esub = s.esub := rfl
@[simp] theorem beginEncode_echoChk : (beginEncode s).echoChk = s.echoChk := rfl
@[simp] theorem beginEncode_pecSeed : (beginEncode s).pecSeed = s.pecSeed := rfl
@[simp] theorem beginEncode_pecTaps : (beginEncode s).pecTaps = s.pecTaps := rfl
@[simp] theorem beginEncode_opc : (beginEncode s).opc = s.opc := rfl
@[simp] theorem beginEncode_hwaddr : (beginEncode s).hwaddr = s.hwaddr := rfl
@[simp] theorem beginEncode_dq : (beginEncode s).dq = s.dq := rfl
@[simp] theorem beginEncode_txb : (beginEncode s).txb = [] := rfl
@[simp] theorem beginEncode_txn : (beginEncode s).txn = s.txn := rfl
@[simp] theorem beginEncode_rxb : (beginEncode s).rxb = s.rxb := rfl
@[simp] theorem beginEncode_rxn : (beginEncode s).rxn = s.rxn := rfl
@[simp] theorem beginEncode_pecr : (beginEncode s).pecr = s.pecr := rfl
@[simp] theorem beginEncode_phase : (beginEncode s).phase = .encode := rfl
@[simp] theorem beginEncode_params : (beginEncode s).params = s.params := rfl
@[simp] theorem beginEncode_host : (beginEncode s).host = s.host := rfl
@[simp] theorem beginEncode_bus : (beginEncode s).bus = s.bus := rfl

@[simp] theorem handOver_res : (handOver s).res = s.res := rfl
@[simp] theorem handOver_fp : (handOver s).fp = s.fp := rfl
@[simp] theorem handOver_ofs : (handOver s).ofs = s.ofs := rfl
@[simp] theorem handOver_ready : (handOver s).ready = s.ready := rfl
@[simp] theorem handOver_done : (handOver s).done = s.done := rfl
@[simp] theorem handOver_warn : (handOver s).warn = s.warn := rfl
@[simp] theorem handOver_err : (handOver s).err = s.err := rfl
@[simp] theorem handOver_esub : (handOver s).esub = s.esub := rfl
@[simp] theorem handOver_echoChk : (handOver s).echoChk = s.echoChk := rfl
@[simp] theorem handOver_pecSeed : (handOver s).pecSeed = s.pecSeed := rfl
@[simp] theorem handOver_pecTaps : (handOver s).pecTaps = s.pecTaps := rfl
@[simp] theorem handOver_opc : (handOver s).opc = s.opc := rfl
@[simp] theorem handOver_hwaddr : (handOver s).hwaddr = s.hwaddr := rfl
@[simp] theorem handOver_dq : (handOver s).dq = s.dq := rfl
@[simp] theorem handOver_txb : (handOver s).txb = s.txb := rfl
@[simp] theorem handOver_txn : (handOver s).txn = s.ofs := rfl
@[simp] theorem handOver_rxb : (handOver s).rxb = s.rxb := rfl
@[simp] theorem handOver_rxn : (handOver s).rxn = s.rxn := rfl
@[simp] theorem handOver_pecr : (handOver s).pecr = s.pecr := rfl
@[simp] theorem handOver_phase : (handOver s).phase = s.phase := rfl
@[simp] theorem handOver_params : (handOver s).params = s.params := rfl
@[simp] theorem handOver_host : (handOver s).host = s.host := rfl
@[simp] theorem handOver_bus : (handOver s).bus = s.bus.afterTransfer (sentBytes s) := rfl

@[simp] theorem unanswered_res : (unanswered s).res = s.res := rfl
@[simp] theorem unanswered_fp : (unanswered s).fp = s.fp := rfl
@[simp] theorem unanswered_ofs : (unanswered s).ofs = s.ofs := rfl
@[simp] theorem unanswered_ready : (unanswered s).ready = s.ready := rfl
@[simp] theorem unanswered_done : (unanswered s).done = s.done := rfl
@[simp] theorem unanswered_warn : (unanswered s).warn = s.warn := rfl
@[simp] theorem unanswered_err : (unanswered s).err = s.err := rfl
@[simp] theorem unanswered_esub : (unanswered s).esub = s.esub := rfl
@[simp] theorem unanswered_echoChk : (unanswered s).echoChk = s.echoChk := rfl
@[simp] theorem unanswered_pecSeed : (unanswered s).pecSeed = s.pecSeed := rfl
@[simp] theorem unanswered_pecTaps : (unanswered s).pecTaps = s.pecTaps := rfl
@[simp] theorem unanswered_opc : (unanswered s).opc = s.opc := rfl
@[simp] theorem unanswered_hwaddr : (unanswered s).hwaddr = s.hwaddr := rfl
@[simp] theorem unanswered_dq : (unanswered s).dq = s.dq := rfl
@[simp] theorem unanswered_txb : (unanswered s).txb = s.txb := rfl
@[simp] theorem unanswered_txn : (unanswered s).txn = s.txn := rfl
@[simp] theorem unanswered_rxb : (unanswered s).rxb = s.rxb := rfl
@[simp] theorem unanswered_rxn : (unanswered s).rxn = s.rxn := rfl
@[simp] theorem unanswered_pecr : (unanswered s).pecr = s.pecr := rfl
@[simp] theorem unanswered_phase : (unanswered s).phase = .transfer := rfl
@[simp] theorem unanswered_params : (unanswered s).params = s.params := rfl
@[simp] theorem unanswered_host : (unanswered s).host = { s.host with response := none } := rfl
@[simp] theorem unanswered_bus : (unanswered s).bus = s.bus := rfl

@[simp] theorem storeNothing_res : (storeNothing s).res = s.res := rfl
@[simp] theorem storeNothing_fp : (storeNothing s).fp = s.fp := rfl
@[simp] theorem storeNothing_ofs : (storeNothing s).ofs = s.ofs := rfl
@[simp] theorem storeNothing_ready : (storeNothing s).ready = s.ready := rfl
@[simp] theorem storeNothing_done : (storeNothing s).done = s.done := rfl
@[simp] theorem storeNothing_warn : (storeNothing s).warn = s.warn := rfl
@[simp] theorem storeNothing_err : (storeNothing s).err = s.err := rfl
@[simp] theorem storeNothing_esub : (storeNothing s).esub = s.esub := rfl
@[simp] theorem storeNothing_echoChk : (storeNothing s).echoChk = s.echoChk := rfl
@[simp] theorem storeNothing_pecSeed : (storeNothing s).pecSeed = s.pecSeed := rfl
@[simp] theorem storeNothing_pecTaps : (storeNothing s).pecTaps = s.pecTaps := rfl
@[simp] theorem storeNothing_opc : (storeNothing s).opc = s.opc := rfl
@[simp] theorem storeNothing_hwaddr : (storeNothing s).hwaddr = s.hwaddr := rfl
@[simp] theorem storeNothing_dq : (storeNothing s).dq = s.dq := rfl
@[simp] theorem storeNothing_txb : (storeNothing s).txb = s.txb := rfl
@[simp] theorem storeNothing_txn : (storeNothing s).txn = s.txn := rfl
@[simp] theorem storeNothing_rxb : (storeNothing s).rxb = [] := rfl
@[simp] theorem storeNothing_rxn : (storeNothing s).rxn = 0#32 := rfl
@[simp] theorem storeNothing_pecr : (storeNothing s).pecr = s.pecr := rfl
@[simp] theorem storeNothing_phase : (storeNothing s).phase = s.phase := rfl
@[simp] theorem storeNothing_params : (storeNothing s).params = s.params := rfl
@[simp] theorem storeNothing_host : (storeNothing s).host = s.host := rfl
@[simp] theorem storeNothing_bus : (storeNothing s).bus = s.bus := rfl

@[simp] theorem rewind_res : (rewind s).res = s.res := rfl
@[simp] theorem rewind_fp : (rewind s).fp = 0#16 := rfl
@[simp] theorem rewind_ofs : (rewind s).ofs = s.ofs := rfl
@[simp] theorem rewind_ready : (rewind s).ready = s.ready := rfl
@[simp] theorem rewind_done : (rewind s).done = s.done := rfl
@[simp] theorem rewind_warn : (rewind s).warn = s.warn := rfl
@[simp] theorem rewind_err : (rewind s).err = s.err := rfl
@[simp] theorem rewind_esub : (rewind s).esub = s.esub := rfl
@[simp] theorem rewind_echoChk : (rewind s).echoChk = s.echoChk := rfl
@[simp] theorem rewind_pecSeed : (rewind s).pecSeed = s.pecSeed := rfl
@[simp] theorem rewind_pecTaps : (rewind s).pecTaps = s.pecTaps := rfl
@[simp] theorem rewind_opc : (rewind s).opc = s.opc := rfl
@[simp] theorem rewind_hwaddr : (rewind s).hwaddr = s.hwaddr := rfl
@[simp] theorem rewind_dq : (rewind s).dq = s.dq := rfl
@[simp] theorem rewind_txb : (rewind s).txb = s.txb := rfl
@[simp] theorem rewind_txn : (rewind s).txn = s.txn := rfl
@[simp] theorem rewind_rxb : (rewind s).rxb = s.rxb := rfl
@[simp] theorem rewind_rxn : (rewind s).rxn = s.rxn := rfl
@[simp] theorem rewind_pecr : (rewind s).pecr = s.pecr := rfl
@[simp] theorem rewind_phase : (rewind s).phase = s.phase := rfl
@[simp] theorem rewind_params : (rewind s).params = s.params := rfl
@[simp] theorem rewind_host : (rewind s).host = s.host := rfl
@[simp] theorem rewind_bus : (rewind s).bus = s.bus := rfl

@[simp] theorem beginParse_res : (beginParse s).res = s.res := rfl
@[simp] theorem beginParse_fp : (beginParse s).fp = 0#16 := rfl
@[simp] theorem beginParse_ofs : (beginParse s).ofs = 0#32 := rfl
@[simp] theorem beginParse_ready : (beginParse s).ready = s.ready := rfl
@[simp] theorem beginParse_done : (beginParse s).done = s.done := rfl
@[simp] theorem beginParse_warn : (beginParse s).warn = s.warn := rfl
@[simp] theorem beginParse_err : (beginParse s).err = s.err := rfl
@[simp] theorem beginParse_esub : (beginParse s).esub = s.esub := rfl
@[simp] theorem beginParse_echoChk : (beginParse s).echoChk = s.echoChk := rfl
@[simp] theorem beginParse_pecSeed : (beginParse s).pecSeed = s.pecSeed := rfl
@[simp] theorem beginParse_pecTaps : (beginParse s).pecTaps = s.pecTaps := rfl
@[simp] theorem beginParse_opc : (beginParse s).opc = s.opc := rfl
@[simp] theorem beginParse_hwaddr : (beginParse s).hwaddr = s.hwaddr := rfl
@[simp] theorem beginParse_dq : (beginParse s).dq = s.dq := rfl
@[simp] theorem beginParse_txb : (beginParse s).txb = s.txb := rfl
@[simp] theorem beginParse_txn : (beginParse s).txn = s.txn := rfl
@[simp] theorem beginParse_rxb : (beginParse s).rxb = s.rxb := rfl
@[simp] theorem beginParse_rxn : (beginParse s).rxn = s.rxn := rfl
@[simp] theorem beginParse_pecr : (beginParse s).pecr = s.pecr := rfl
@[simp] theorem beginParse_phase : (beginParse s).phase = .parse := rfl
@[simp] theorem beginParse_params : (beginParse s).params = s.params := rfl
@[simp] theorem beginParse_host : (beginParse s).host = s.host := rfl
@[simp] theorem beginParse_bus : (beginParse s).bus = s.bus := rfl

@[simp] theorem storeAnswer_res (rx : List Byte) : (storeAnswer rx s).res = s.res := rfl
@[simp] theorem storeAnswer_fp (rx : List Byte) : (storeAnswer rx s).fp = s.fp := rfl
@[simp] theorem storeAnswer_ofs (rx : List Byte) : (storeAnswer rx s).ofs = s.ofs := rfl
@[simp] theorem storeAnswer_ready (rx : List Byte) : (storeAnswer rx s).ready = s.ready := rfl
@[simp] theorem storeAnswer_done (rx : List Byte) : (storeAnswer rx s).done = s.done := rfl
@[simp] theorem storeAnswer_warn (rx : List Byte) : (storeAnswer rx s).warn = s.warn := rfl
@[simp] theorem storeAnswer_err (rx : List Byte) : (storeAnswer rx s).err = s.err := rfl
@[simp] theorem storeAnswer_esub (rx : List Byte) : (storeAnswer rx s).esub = s.esub := rfl
@[simp] theorem storeAnswer_echoChk (rx : List Byte) : (storeAnswer rx s).echoChk = s.echoChk := rfl
@[simp] theorem storeAnswer_pecSeed (rx : List Byte) : (storeAnswer rx s).pecSeed = s.pecSeed := rfl
@[simp] theorem storeAnswer_pecTaps (rx : List Byte) : (storeAnswer rx s).pecTaps = s.pecTaps := rfl
@[simp] theorem storeAnswer_opc (rx : List Byte) : (storeAnswer rx s).opc = s.opc := rfl
@[simp] theorem storeAnswer_hwaddr (rx : List Byte) : (storeAnswer rx s).hwaddr = s.hwaddr := rfl
@[simp] theorem storeAnswer_dq (rx : List Byte) : (storeAnswer rx s).dq = s.dq := rfl
@[simp] theorem storeAnswer_txb (rx : List Byte) : (storeAnswer rx s).txb = s.txb := rfl
@[simp] theorem storeAnswer_txn (rx : List Byte) : (storeAnswer rx s).txn = s.txn := rfl
@[simp] theorem storeAnswer_rxb (rx : List Byte) :
    (storeAnswer rx s).rxb = Memory.cells 0 (rx.take (bufmax s.params)) :=
  rfl
@[simp] theorem storeAnswer_rxn (rx : List Byte) :
    (storeAnswer rx s).rxn = rxLength rx.length :=
  rfl
@[simp] theorem storeAnswer_pecr (rx : List Byte) : (storeAnswer rx s).pecr = s.pecr := rfl
@[simp] theorem storeAnswer_phase (rx : List Byte) : (storeAnswer rx s).phase = s.phase := rfl
@[simp] theorem storeAnswer_params (rx : List Byte) : (storeAnswer rx s).params = s.params := rfl
@[simp] theorem storeAnswer_host (rx : List Byte) : (storeAnswer rx s).host = s.host := rfl
@[simp] theorem storeAnswer_bus (rx : List Byte) : (storeAnswer rx s).bus = s.bus := rfl

@[simp] theorem computePec_res (l : List Byte) : (computePec l s).res = s.res := rfl
@[simp] theorem computePec_fp (l : List Byte) : (computePec l s).fp = s.fp := rfl
@[simp] theorem computePec_ofs (l : List Byte) : (computePec l s).ofs = s.ofs := rfl
@[simp] theorem computePec_ready (l : List Byte) : (computePec l s).ready = s.ready := rfl
@[simp] theorem computePec_done (l : List Byte) : (computePec l s).done = s.done := rfl
@[simp] theorem computePec_warn (l : List Byte) : (computePec l s).warn = s.warn := rfl
@[simp] theorem computePec_err (l : List Byte) : (computePec l s).err = s.err := rfl
@[simp] theorem computePec_esub (l : List Byte) : (computePec l s).esub = s.esub := rfl
@[simp] theorem computePec_echoChk (l : List Byte) : (computePec l s).echoChk = s.echoChk := rfl
@[simp] theorem computePec_pecSeed (l : List Byte) : (computePec l s).pecSeed = s.pecSeed := rfl
@[simp] theorem computePec_pecTaps (l : List Byte) : (computePec l s).pecTaps = s.pecTaps := rfl
@[simp] theorem computePec_opc (l : List Byte) : (computePec l s).opc = s.opc := rfl
@[simp] theorem computePec_hwaddr (l : List Byte) : (computePec l s).hwaddr = s.hwaddr := rfl
@[simp] theorem computePec_dq (l : List Byte) : (computePec l s).dq = s.dq := rfl
@[simp] theorem computePec_txb (l : List Byte) : (computePec l s).txb = s.txb := rfl
@[simp] theorem computePec_txn (l : List Byte) : (computePec l s).txn = s.txn := rfl
@[simp] theorem computePec_rxb (l : List Byte) : (computePec l s).rxb = s.rxb := rfl
@[simp] theorem computePec_rxn (l : List Byte) : (computePec l s).rxn = s.rxn := rfl
@[simp] theorem computePec_pecr (l : List Byte) : (computePec l s).pecr = s.pecOf l := rfl
@[simp] theorem computePec_phase (l : List Byte) : (computePec l s).phase = s.phase := rfl
@[simp] theorem computePec_params (l : List Byte) : (computePec l s).params = s.params := rfl
@[simp] theorem computePec_host (l : List Byte) : (computePec l s).host = s.host := rfl
@[simp] theorem computePec_bus (l : List Byte) : (computePec l s).bus = s.bus := rfl

@[simp] theorem takeInput_res : (takeInput s).res = s.res := rfl
@[simp] theorem takeInput_fp : (takeInput s).fp = s.fp := rfl
@[simp] theorem takeInput_ofs : (takeInput s).ofs = s.ofs := rfl
@[simp] theorem takeInput_ready : (takeInput s).ready = s.ready := rfl
@[simp] theorem takeInput_done : (takeInput s).done = s.done := rfl
@[simp] theorem takeInput_warn : (takeInput s).warn = s.warn := rfl
@[simp] theorem takeInput_err : (takeInput s).err = s.err := rfl
@[simp] theorem takeInput_esub : (takeInput s).esub = s.esub := rfl
@[simp] theorem takeInput_echoChk : (takeInput s).echoChk = s.echoChk := rfl
@[simp] theorem takeInput_pecSeed : (takeInput s).pecSeed = s.pecSeed := rfl
@[simp] theorem takeInput_pecTaps : (takeInput s).pecTaps = s.pecTaps := rfl
@[simp] theorem takeInput_opc : (takeInput s).opc = s.opc := rfl
@[simp] theorem takeInput_hwaddr : (takeInput s).hwaddr = s.hwaddr := rfl
@[simp] theorem takeInput_dq : (takeInput s).dq = s.dq := rfl
@[simp] theorem takeInput_txb : (takeInput s).txb = s.txb := rfl
@[simp] theorem takeInput_txn : (takeInput s).txn = s.txn := rfl
@[simp] theorem takeInput_rxb : (takeInput s).rxb = s.rxb := rfl
@[simp] theorem takeInput_rxn : (takeInput s).rxn = s.rxn := rfl
@[simp] theorem takeInput_pecr : (takeInput s).pecr = s.pecr := rfl
@[simp] theorem takeInput_phase : (takeInput s).phase = s.phase := rfl
@[simp] theorem takeInput_params : (takeInput s).params = s.params := rfl
@[simp] theorem takeInput_host :
    (takeInput s).host = { s.host with pending := s.host.pending.tail } :=
  rfl
@[simp] theorem takeInput_bus : (takeInput s).bus = s.bus := rfl

@[simp] theorem warnExtraFlags_res (x : Word) : (warnExtraFlags x s).res = s.res := rfl
@[simp] theorem warnExtraFlags_fp (x : Word) : (warnExtraFlags x s).fp = s.fp := rfl
@[simp] theorem warnExtraFlags_ofs (x : Word) : (warnExtraFlags x s).ofs = s.ofs := rfl
@[simp] theorem warnExtraFlags_ready (x : Word) : (warnExtraFlags x s).ready = s.ready := rfl
@[simp] theorem warnExtraFlags_done (x : Word) : (warnExtraFlags x s).done = s.done := rfl
@[simp] theorem warnExtraFlags_warn (x : Word) :
    (warnExtraFlags x s).warn = (s.warn || x != Config.extraFlagsDefault) :=
  rfl
@[simp] theorem warnExtraFlags_err (x : Word) : (warnExtraFlags x s).err = s.err := rfl
@[simp] theorem warnExtraFlags_esub (x : Word) : (warnExtraFlags x s).esub = s.esub := rfl
@[simp] theorem warnExtraFlags_echoChk (x : Word) : (warnExtraFlags x s).echoChk = s.echoChk := rfl
@[simp] theorem warnExtraFlags_pecSeed (x : Word) : (warnExtraFlags x s).pecSeed = s.pecSeed := rfl
@[simp] theorem warnExtraFlags_pecTaps (x : Word) : (warnExtraFlags x s).pecTaps = s.pecTaps := rfl
@[simp] theorem warnExtraFlags_opc (x : Word) : (warnExtraFlags x s).opc = s.opc := rfl
@[simp] theorem warnExtraFlags_hwaddr (x : Word) : (warnExtraFlags x s).hwaddr = s.hwaddr := rfl
@[simp] theorem warnExtraFlags_dq (x : Word) : (warnExtraFlags x s).dq = s.dq := rfl
@[simp] theorem warnExtraFlags_txb (x : Word) : (warnExtraFlags x s).txb = s.txb := rfl
@[simp] theorem warnExtraFlags_txn (x : Word) : (warnExtraFlags x s).txn = s.txn := rfl
@[simp] theorem warnExtraFlags_rxb (x : Word) : (warnExtraFlags x s).rxb = s.rxb := rfl
@[simp] theorem warnExtraFlags_rxn (x : Word) : (warnExtraFlags x s).rxn = s.rxn := rfl
@[simp] theorem warnExtraFlags_pecr (x : Word) : (warnExtraFlags x s).pecr = s.pecr := rfl
@[simp] theorem warnExtraFlags_phase (x : Word) : (warnExtraFlags x s).phase = s.phase := rfl
@[simp] theorem warnExtraFlags_params (x : Word) : (warnExtraFlags x s).params = s.params := rfl
@[simp] theorem warnExtraFlags_host (x : Word) : (warnExtraFlags x s).host = s.host := rfl
@[simp] theorem warnExtraFlags_bus (x : Word) : (warnExtraFlags x s).bus = s.bus := rfl

@[simp] theorem toReset_res : (toReset s).res = [] := rfl
@[simp] theorem toReset_fp : (toReset s).fp = 0#16 := rfl
@[simp] theorem toReset_ofs : (toReset s).ofs = 0#32 := rfl
@[simp] theorem toReset_ready : (toReset s).ready = false := rfl
@[simp] theorem toReset_done : (toReset s).done = false := rfl
@[simp] theorem toReset_warn : (toReset s).warn = false := rfl
@[simp] theorem toReset_err : (toReset s).err = 0#4 := rfl
@[simp] theorem toReset_esub : (toReset s).esub = 0#4 := rfl
@[simp] theorem toReset_echoChk : (toReset s).echoChk = false := rfl
@[simp] theorem toReset_pecSeed : (toReset s).pecSeed = (Config.pecSeedRst s.params.pecW).setWidth 16 := rfl
@[simp] theorem toReset_pecTaps : (toReset s).pecTaps = (s.params.pecTapsRst ||| 1#s.pecW).setWidth 16 := rfl
@[simp] theorem toReset_opc : (toReset s).opc = 0#4 := rfl
@[simp] theorem toReset_hwaddr : (toReset s).hwaddr = 0#3 := rfl
@[simp] theorem toReset_dq : (toReset s).dq = [] := rfl
@[simp] theorem toReset_txb : (toReset s).txb = [] := rfl
@[simp] theorem toReset_txn : (toReset s).txn = 0#32 := rfl
@[simp] theorem toReset_rxb : (toReset s).rxb = [] := rfl
@[simp] theorem toReset_rxn : (toReset s).rxn = 0#32 := rfl
@[simp] theorem toReset_pecr : (toReset s).pecr = (Config.pecSeedRst s.params.pecW).setWidth 16 := rfl
@[simp] theorem toReset_phase : (toReset s).phase = .idle := rfl
@[simp] theorem toReset_params : (toReset s).params = s.params := rfl
@[simp] theorem toReset_host : (toReset s).host = s.host := rfl
@[simp] theorem toReset_bus : (toReset s).bus = s.bus := rfl

@[simp] theorem hardwareReset_res (r : List HostInput) : (hardwareReset r s).res = [] := rfl
@[simp] theorem hardwareReset_fp (r : List HostInput) : (hardwareReset r s).fp = 0#16 := rfl
@[simp] theorem hardwareReset_ofs (r : List HostInput) : (hardwareReset r s).ofs = 0#32 := rfl
@[simp] theorem hardwareReset_ready (r : List HostInput) : (hardwareReset r s).ready = false := rfl
@[simp] theorem hardwareReset_done (r : List HostInput) : (hardwareReset r s).done = false := rfl
@[simp] theorem hardwareReset_warn (r : List HostInput) : (hardwareReset r s).warn = false := rfl
@[simp] theorem hardwareReset_err (r : List HostInput) : (hardwareReset r s).err = 0#4 := rfl
@[simp] theorem hardwareReset_esub (r : List HostInput) : (hardwareReset r s).esub = 0#4 := rfl
@[simp] theorem hardwareReset_echoChk (r : List HostInput) :
    (hardwareReset r s).echoChk = false :=
  rfl
@[simp] theorem hardwareReset_pecSeed (r : List HostInput) :
    (hardwareReset r s).pecSeed = (Config.pecSeedRst s.params.pecW).setWidth 16 :=
  rfl
@[simp] theorem hardwareReset_pecTaps (r : List HostInput) :
    (hardwareReset r s).pecTaps = (s.params.pecTapsRst ||| 1#s.pecW).setWidth 16 :=
  rfl
@[simp] theorem hardwareReset_opc (r : List HostInput) : (hardwareReset r s).opc = 0#4 := rfl
@[simp] theorem hardwareReset_hwaddr (r : List HostInput) : (hardwareReset r s).hwaddr = 0#3 := rfl
@[simp] theorem hardwareReset_dq (r : List HostInput) : (hardwareReset r s).dq = [] := rfl
@[simp] theorem hardwareReset_txb (r : List HostInput) : (hardwareReset r s).txb = [] := rfl
@[simp] theorem hardwareReset_txn (r : List HostInput) : (hardwareReset r s).txn = 0#32 := rfl
@[simp] theorem hardwareReset_rxb (r : List HostInput) : (hardwareReset r s).rxb = [] := rfl
@[simp] theorem hardwareReset_rxn (r : List HostInput) : (hardwareReset r s).rxn = 0#32 := rfl
@[simp] theorem hardwareReset_pecr (r : List HostInput) :
    (hardwareReset r s).pecr = (Config.pecSeedRst s.params.pecW).setWidth 16 :=
  rfl
@[simp] theorem hardwareReset_phase (r : List HostInput) : (hardwareReset r s).phase = .idle := rfl
@[simp] theorem hardwareReset_params (r : List HostInput) :
    (hardwareReset r s).params = s.params :=
  rfl
@[simp] theorem hardwareReset_host (r : List HostInput) :
    (hardwareReset r s).host = { pending := r, response := none } :=
  rfl
@[simp] theorem hardwareReset_bus (r : List HostInput) : (hardwareReset r s).bus = s.bus := rfl

/-- The PEC of a byte list reads PEC_W, PEC_SEED and PEC_TAPS only (41_pec_engine.md R177). -/
theorem pecOf_congr {s t : State} (h : t.params = s.params) (h1 : t.pecSeed = s.pecSeed)
    (h2 : t.pecTaps = s.pecTaps) (l : List Byte) :
    t.pecOf l = s.pecOf l ∧ t.pecBytes l = s.pecBytes l := by
  have e : ∀ w : PecWidth, t.params.pecW = w →
      t.pecOf l = holdVector (pec (t.pecSeed.setWidth w.val) (t.pecTaps.setWidth w.val) l) ∧
      t.pecBytes l = pecOut (pec (t.pecSeed.setWidth w.val) (t.pecTaps.setWidth w.val) l) := by
    rintro _ rfl
    exact ⟨rfl, rfl⟩
  have g := e _ (congrArg Params.pecW h)
  rw [h1, h2] at g
  exact g

end Sys2Proof.Laws
end

