-- ==== Sys2Proof/Laws/Ops.lean ====
section
/-! SUPPORT. What each shared operation can do, said once. -/

namespace Sys2Proof.Laws

open Sys2Proof.Machine

/-! ### Sequencing -/

@[simp] theorem onNext_next (s : State) (f : State → Result) : onNext (.next s) f = f s := rfl

/-- A sequence that reaches a next state passed through one. -/
theorem onNext_eq_next {r : Result} {f : State → Result} {t : State} :
    onNext r f = .next t ↔ ∃ s, r = .next s ∧ f s = .next t := by
  cases r <;> simp [onNext]

/-! ### The vector and its register -/

/-- A register of the engine gives back the vector put into it: PEC_W is at most 16. -/
@[simp] theorem vectorIn_holdVector (s : State) (v : BitVec s.pecW) : s.vectorIn (holdVector v) = v := by
  have h : s.pecW ≤ 16 := s.params.pecW.property.2
  have hv : v.toNat < 2 ^ 16 := Nat.lt_of_lt_of_le v.isLt (Nat.pow_le_pow_right (by omega) h)
  apply BitVec.eq_of_toNat_eq
  rw [State.vectorIn, holdVector, BitVec.toNat_setWidth, BitVec.toNat_setWidth, Nat.mod_eq_of_lt hv,
    Nat.mod_eq_of_lt v.isLt]

/-- A vector in a register is the same number. -/
theorem holdVector_toNat {w : Nat} (h : w ≤ 16) (v : BitVec w) : (holdVector v).toNat = v.toNat := by
  rw [holdVector, BitVec.toNat_setWidth]
  exact Nat.mod_eq_of_lt (Nat.lt_of_lt_of_le v.isLt (Nat.pow_le_pow_right (by omega) h))

/-- Bit 0 of a tap mask as reset and CSR.WR store it (10_state.md R35). -/
theorem holdVector_taps_zero (w : PecWidth) (v : BitVec w.val) :
    (holdVector (v ||| 1#w.val)).getLsbD 0 = true := by
  have h : 0 < w.val := Nat.lt_of_lt_of_le Nat.zero_lt_two w.property.1
  simp [holdVector, h]

/-- What a computation leaves in PECR has PEC_W bits (41_pec_engine.md R175). -/
theorem pecOf_lt (s : State) (l : List Byte) : (s.pecOf l).toNat < 2 ^ s.pecW := by
  rw [State.pecOf, holdVector_toNat s.params.pecW.property.2]
  exact (s.pecVector l).isLt

/-! ### Hardware reset -/

/-- No hardware reset is taken out of inputs that hold none. -/
@[simp] theorem withoutReset_eq_none {l : List HostInput} : withoutReset l = none ↔ .hardwareReset ∉ l := by
  induction l with
  | nil => simp [withoutReset]
  | cons i l ih => cases i <;> simp [withoutReset, ih]

/-- The hardware reset taken out is the first. -/
theorem withoutReset_append (l : List Message) (rest : List HostInput) :
    withoutReset (l.map .command ++ .hardwareReset :: rest) = some (l.map .command ++ rest) := by
  induction l with
  | nil => rfl
  | cons m l ih => simp [withoutReset, ih]

/-- Where a hardware reset lands: at the head of the inputs, or anywhere in them while a transfer is not
answered. -/
theorem resetLands_some {s : State} {rest : List HostInput} (h : s.resetLands = some rest) :
    s.host.pending = .hardwareReset :: rest ∨
      (s.phase = .transfer ∧ withoutReset s.host.pending = some rest) := by
  unfold State.resetLands at h
  split at h
  · exact .inr ⟨‹_›, h⟩
  all_goals
    split at h
    · exact .inl (by rw [‹s.host.pending = _›, Option.some.inj h])
    · cases h
    · cases h

/-! ### Lengths -/

@[simp] theorem pecOut_length {w : Nat} (v : BitVec w) : (pecOut v).length = 2 := rfl

@[simp] theorem pecBytes_length (s : State) (l : List Byte) : (s.pecBytes l).length = 2 := rfl

@[simp] theorem fillBytes_length (n : Nat) : (fillBytes n).length = n := by simp [fillBytes]

@[simp] theorem bytesBe_length (v : DWord) (n : Nat) : (bytesBe v n).length = n := by simp [bytesBe]

@[simp] theorem commandBytes_length (a : BitVec 16) : (commandBytes a).length = 2 := rfl

@[simp] theorem headerA_length (a : BitVec 16) (rd : Bool) : (headerA a rd).length = 1 := rfl

@[simp] theorem headerB_length (s : State) (a : BitVec 16) (rd : Bool) :
    (headerB s a rd).length = 2 := rfl

@[simp] theorem headerC_length (s : State) (a : BitVec 16) : (headerC s a).length = 4 := rfl

@[simp] theorem writeTail_length (s : State) (l : List Byte) : (writeTail s l).length = 2 := rfl

/-! ### Results -/

/-- What `x[i] <- v` leaves in each result (00_scope.md R9). -/
theorem getElem?_writeResult {res : List DWord} {i : Nat} (h : i ≤ res.length) (v : DWord) (j : Nat) :
    (writeResult res i v)[j]? = if j = i then some v else res[j]? := by
  have hl : (res.take i).length = i := by rw [List.length_take]; omega
  unfold writeResult
  rcases Nat.lt_trichotomy j i with hj | rfl | hj
  · rw [List.getElem?_append_left (by omega), List.getElem?_take, if_pos hj, if_neg (by omega)]
  · rw [List.getElem?_append_right (by omega), hl, Nat.sub_self, if_pos rfl]
    rfl
  · rw [List.getElem?_append_right (by omega), hl, if_neg (by omega),
      show j - i = (j - i - 1) + 1 by omega, List.getElem?_cons_succ, List.getElem?_drop,
      show i + 1 + (j - i - 1) = j by omega]

/-- The results up to the one written. -/
theorem writeResult_take {res : List DWord} {i : Nat} (h : i ≤ res.length) (v : DWord) :
    (writeResult res i v).take (i + 1) = res.take i ++ [v] := by
  have hl : (res.take i).length = i := by rw [List.length_take]; omega
  rw [writeResult, List.take_append, hl, List.take_of_length_le (by omega)]
  simp

theorem writeResult_length {res : List DWord} {i : Nat} (h : i ≤ res.length) (v : DWord) :
    (writeResult res i v).length = max res.length (i + 1) := by
  simp only [writeResult, List.length_append, List.length_take, List.length_cons, List.length_drop]
  omega

/-! ### The two runs of a frame operation -/

theorem runFrame_encode {s : State} (h : s.phase = .encode) (tx : List Byte)
    (p : PecReg) (a n t : Nat) (v : Bool) :
    runFrame tx p a n t v s = encodeFrame tx p s := by
  simp only [runFrame, h]

theorem runFrame_parse {s : State} (h : s.phase = .parse) (tx : List Byte)
    (p : PecReg) (a n t : Nat) (v : Bool) :
    runFrame tx p a n t v s = parseFrame a n t v s := by
  simp only [runFrame, h]

/-- A frame operation that reaches a next state ran inside a walk of EXEC. -/
theorem runFrame_next_phase {s u : State} {tx : List Byte} {p : PecReg} {a n t : Nat}
    {v : Bool} (h : runFrame tx p a n t v s = .next u) : s.phase = .encode ∨ s.phase = .parse := by
  cases hp : s.phase <;> simp [runFrame, hp] at h ⊢

/-- ENCODE where the bytes fit. -/
theorem encodeFrame_fits {tx : List Byte} {s : State} (p : PecReg)
    (h : s.ofs.toNat + tx.length ≤ bufmax s.params) :
    encodeFrame tx p s = .next { s with
      txb := memWrite s.txb s.ofs.toNat tx, ofs := s.ofs + BitVec.ofNat 32 tx.length,
      fp := s.fp + 1#16, pecr := p } := by
  rw [encodeFrame, if_pos h]

/-- What ENCODE does when it goes on. -/
theorem encodeFrame_next {tx : List Byte} {p : PecReg} {s t : State}
    (h : encodeFrame tx p s = .next t) :
    s.ofs.toNat + tx.length ≤ bufmax s.params ∧
      t = { s with
        txb := memWrite s.txb s.ofs.toNat tx, ofs := s.ofs + BitVec.ofNat 32 tx.length,
        fp := s.fp + 1#16, pecr := p } := by
  rw [encodeFrame] at h
  split at h
  · exact ⟨‹_›, (Host.Outcome.next.inj h).symm⟩
  · cases h

/-- The write of a result where the register exists. -/
theorem deliver_fits {s : State} (v : DWord) (c : Nat) (h : s.fp.toNat < s.params.qdepth) :
    deliver v c s = .next { s with
      res := writeResult s.res s.fp.toNat v, ofs := s.ofs + BitVec.ofNat 32 c, fp := s.fp + 1#16 } := by
  rw [deliver, if_pos h]

/-- What the write of a result does when it goes on. -/
theorem deliver_next {v : DWord} {c : Nat} {s t : State} (h : deliver v c s = .next t) :
    s.fp.toNat < s.params.qdepth ∧
      t = { s with
        res := writeResult s.res s.fp.toNat v, ofs := s.ofs + BitVec.ofNat 32 c, fp := s.fp + 1#16 } := by
  rw [deliver] at h
  split at h
  · exact ⟨‹_›, (Host.Outcome.next.inj h).symm⟩
  · cases h

/-- What PARSE does when it goes on: one of the three aborts, or a result delivered. -/
theorem parseFrame_next {a n c : Nat} {v : Bool} {s t : State}
    (h : parseFrame a n c v s = .next t) :
    t = abort .framingLen s ∨ t = abort .framingEcho s ∨
      (∃ p, t = abort .pecMismatch { s with pecr := p }) ∨
      ∃ p w, deliver w (a + n + c) { s with pecr := p } = .next t := by
  simp only [parseFrame] at h
  split at h
  · exact .inl (Host.Outcome.next.inj h).symm
  · split at h
    · exact .inr (.inl (Host.Outcome.next.inj h).symm)
    · split at h
      · split at h
        · exact .inr (.inr (.inr ⟨_, _, h⟩))
        · exact .inr (.inr (.inl ⟨_, (Host.Outcome.next.inj h).symm⟩))
      · exact .inr (.inr (.inr ⟨s.pecr, _, h⟩))

/-! ### The frame operations among the instructions -/

/-- The frame operation a descriptor selects is the instruction it decodes to (30_encoding.md R101). -/
theorem exec_frame_instr (f : Frame) (s : State) : exec f.instr s = execFrame f s := by
  rcases f with ⟨_ | _ | _, _ | _, a, n, v⟩ <;> rfl

/-! ### The transfer -/

/-- What the transfer does, by the answer of XPORT. -/
theorem transfer_cases (s : State) :
    (s.bus.answer (sentBytes s) = .never ∧ transfer s = unanswered (handOver s)) ∨
    (s.bus.answer (sentBytes s) = .ioerror ∧
      transfer s = abort .transportIo (rewind (storeNothing (handOver s)))) ∨
    (∃ rx, s.bus.answer (sentBytes s) = .ok rx ∧
      ((rx.length = s.ofs.toNat ∧ transfer s = beginParse (storeAnswer rx (handOver s))) ∨
       (rx.length ≠ s.ofs.toNat ∧
        transfer s = abort .framingLen (rewind (storeAnswer rx (handOver s)))))) := by
  unfold transfer
  split
  · exact .inl ⟨‹_›, rfl⟩
  · exact .inr (.inl ⟨‹_›, rfl⟩)
  · refine .inr (.inr ⟨_, ‹_›, ?_⟩)
    split
    · exact .inl ⟨‹_›, rfl⟩
    · exact .inr ⟨‹_›, rfl⟩

/-- Every transfer is one entry of the record of what was sent, whatever the answer. -/
theorem transfer_sent (s : State) : (transfer s).bus.sent = sentBytes s :: s.bus.sent := by
  obtain ⟨-, h⟩ | ⟨-, h⟩ | ⟨rx, -, ⟨-, h⟩ | ⟨-, h⟩⟩ := transfer_cases s <;> rw [h] <;> rfl

/-- Where the transfer leaves the machine: waiting for ever, aborted, or at the parse walk. -/
theorem transfer_phase (s : State) :
    (transfer s).phase = .transfer ∨ (transfer s).phase = .idle ∨ (transfer s).phase = .parse := by
  obtain ⟨-, h⟩ | ⟨-, h⟩ | ⟨rx, -, ⟨-, h⟩ | ⟨-, h⟩⟩ := transfer_cases s <;> rw [h] <;> simp

/-! ### The walks -/

@[simp] theorem walk_nil (s : State) : walk [] s = .next s := rfl

/-- One frame of a walk. -/
theorem walk_cons_ok {d : Descriptor} {f : Frame} (h : decodeFrame d = .ok f) (ds : List Descriptor)
    (s : State) : walk (d :: ds) s =
      onNext (execFrame f s) (fun u => if u.phase = s.phase then walk ds u else .next u) := by
  simp only [walk, h]

/-! ### Control and status registers -/

/-- The implemented CSR numbers are 0 to 10 (10_state.md R30, R42). -/
theorem csrRead_isSome (s : State) (k : BitVec 8) : (csrRead s k).isSome = decide (k.toNat ≤ 10) := by
  unfold csrRead
  split <;> simp_all
  omega

/-- A register write changes CTRL, PEC_SEED, PEC_TAPS and BUSFMT at most. -/
theorem csrWrite_frame (s : State) (k : BitVec 8) (v : Word) :
    ∃ e p q o a, csrWrite s k v =
      { s with echoChk := e, pecSeed := p, pecTaps := q, opc := o, hwaddr := a } := by
  unfold csrWrite
  split
  · exact ⟨_, s.pecSeed, s.pecTaps, s.opc, s.hwaddr, rfl⟩
  · exact ⟨s.echoChk, _, s.pecTaps, s.opc, s.hwaddr, rfl⟩
  · exact ⟨s.echoChk, s.pecSeed, _, s.opc, s.hwaddr, rfl⟩
  · exact ⟨s.echoChk, s.pecSeed, s.pecTaps, _, _, rfl⟩
  · exact ⟨s.echoChk, s.pecSeed, s.pecTaps, s.opc, s.hwaddr, rfl⟩

/-! ### Commands that end in one of a few states -/

/-- What DQ.PUSH leaves. -/
theorem pushDescriptor_cases (d : Descriptor) (s : State) :
    pushDescriptor d s = raise .illegalDesc s ∨ pushDescriptor d s = raise .stateQueueFull s ∨
      (∃ f, decodeFrame d = .ok f ∧ s.dq.length < s.params.qdepth ∧
        pushDescriptor d s = respond .empty { s with dq := s.dq ++ [d] }) := by
  unfold pushDescriptor
  split
  · exact .inl rfl
  · split
    · exact .inr (.inl rfl)
    · exact .inr (.inr ⟨_, ‹_›, by omega, rfl⟩)

/-- What CSR.WR leaves. -/
theorem writeCsr_cases (k : BitVec 8) (v : Word) (s : State) :
    (∃ e, writeCsr k v s = raise e s) ∨
      (s.ready = false ∧ csrWritable k = true ∧ writeCsr k v s = respond .empty (csrWrite s k v)) := by
  unfold writeCsr
  split
  · exact .inl ⟨_, rfl⟩
  · split
    · exact .inl ⟨_, rfl⟩
    · split
      · exact .inl ⟨_, rfl⟩
      · exact .inr ⟨by simpa using ‹¬s.ready = true›, by simp_all, rfl⟩

/-- What INIT leaves: READY changes only where all four checks pass, WARN only past the first two. -/
theorem initBus_cases (b m x : Word) (s : State) :
    (∃ e, initBus b m x s = raise e s) ∨
      (s.ready = false ∧ ((∃ e, initBus b m x s = raise e (warnExtraFlags x s)) ∨
        initBus b m x s = respond .empty { warnExtraFlags x s with ready := true })) := by
  unfold initBus
  split
  · exact .inl ⟨_, rfl⟩
  · split
    · exact .inl ⟨_, rfl⟩
    · refine .inr ⟨by simpa using ‹¬s.ready = true›, ?_⟩
      unfold validateBus
      split
      · exact .inl ⟨_, rfl⟩
      · split
        · exact .inl ⟨_, rfl⟩
        · split
          · exact .inl ⟨_, rfl⟩
          · split
            · exact .inl ⟨_, rfl⟩
            · exact .inr rfl

end Sys2Proof.Laws
end

