-- ==== Sys2Proof/Laws/Codec.lean ====
section
/-! SUPPORT. The machine's frame operations against the codec of the claims (Safety.lean): what ENCODE sends, what PARSE
makes of a slice. -/

namespace Sys2Proof.Laws

open Sys2Proof.Machine

/-! ### Numbers and bytes -/

/-- The machine's big-endian bytes are the digits of the number (40_frame.md R139). -/
theorem bytesBe_eq_digitsOf (v : DWord) (n : Nat) : bytesBe v n = digitsOf v.toNat n := by
  simp only [bytesBe, digitsOf]
  refine List.map_congr_left fun k _ => BitVec.eq_of_toNat_eq ?_
  rw [BitVec.toNat_setWidth, BitVec.toNat_ushiftRight, BitVec.toNat_ofNat, Nat.shiftRight_eq_div_pow,
    show 256 = 2 ^ 8 from rfl, ← pow_mul]

@[simp] theorem digitsOf_length (v n : Nat) : (digitsOf v n).length = n := by simp [digitsOf]

theorem valueOf_append (l : List Byte) (b : Byte) :
    valueOf (l ++ [b]) = valueOf l * 256 + b.toNat := by simp [valueOf]

theorem valueOf_lt (l : List Byte) : valueOf l < 2 ^ (8 * l.length) := by
  induction l using List.reverseRecOn with
  | nil => simp [valueOf]
  | append_singleton l b ih =>
    rw [valueOf_append, List.length_append, List.length_singleton, Nat.mul_add, pow_add]
    have := b.isLt
    omega

/-- One more byte of the machine's assembly, in 64 bits (R144). -/
theorem be_append (l : List Byte) (b : Byte) :
    be (l ++ [b]) = BitVec.ofNat 64 ((be l).toNat * 256 + b.toNat) := by
  have hb := b.isLt
  apply BitVec.eq_of_toNat_eq
  simp only [be, List.foldl_append, List.foldl_cons, List.foldl_nil]
  generalize l.foldl (fun (acc : DWord) (b : Byte) => acc <<< 8 ||| b.setWidth 64) 0#64 = x
  have hs : (x <<< 8).toNat = (x.toNat % 2 ^ 56) <<< 8 := by
    rw [BitVec.toNat_shiftLeft, Nat.shiftLeft_eq, Nat.shiftLeft_eq]
    omega
  have hz : (b.setWidth 64 : DWord).toNat = b.toNat := by
    rw [BitVec.toNat_setWidth, Nat.mod_eq_of_lt (by omega)]
  rw [BitVec.toNat_or, hs, hz, ← Nat.shiftLeft_add_eq_or_of_lt hb, Nat.shiftLeft_eq,
    BitVec.toNat_ofNat]
  omega

/-- The machine's assembly is the number the bytes spell, in 64 bits (R144). -/
theorem be_eq (l : List Byte) : be l = BitVec.ofNat 64 (valueOf l) := by
  induction l using List.reverseRecOn with
  | nil => rfl
  | append_singleton l b ih =>
    rw [be_append, ih, valueOf_append, BitVec.toNat_ofNat]
    apply BitVec.eq_of_toNat_eq
    rw [BitVec.toNat_ofNat, BitVec.toNat_ofNat]
    omega

/-! ### ENCODE -/

@[simp] theorem frameData_length (f : Frame) : (frameData f).length = f.dlen.toNat := by
  unfold frameData
  split <;> simp

/-- The number of bytes of a frame (30_encoding.md R113, 40_frame.md R141). -/
@[simp] theorem frameTx_length (s : State) (f : Frame) : (frameTx s f).length = frameCount f := by
  obtain ⟨_ | _ | _, _ | _, a, n, v⟩ := f <;>
    simp [frameTx, frameHeader, frameTail, frameCommand, frameCount, hlen, tlen] <;> omega

/-- The format A control byte as a number (30_encoding.md R92). -/
theorem controlByteA_eq (a : BitVec 16) (rd : Bool) :
    controlByteA a rd = BitVec.ofNat 8 (a.toNat % 64 * 4 + rd.toNat) := by
  have h : ∀ (x : BitVec 6) (r : Bool),
      (x ++ 0#1 ++ BitVec.ofBool r : BitVec 8) = BitVec.ofNat 8 (x.toNat * 4 + r.toNat) := by decide
  rw [controlByteA, h, BitVec.extractLsb'_toNat, Nat.shiftRight_zero]

/-- The format B control byte as a number (30_encoding.md R94). -/
theorem controlByteB_eq (s : State) (rd : Bool) :
    controlByteB s rd = BitVec.ofNat 8 (s.opc.toNat * 16 + s.hwaddr.toNat * 2 + rd.toNat) := by
  have h : ∀ (x : BitVec 4) (y : BitVec 3) (r : Bool),
      (x ++ y ++ BitVec.ofBool r : BitVec 8) =
        BitVec.ofNat 8 (x.toNat * 16 + y.toNat * 2 + r.toNat) := by decide
  rw [controlByteB, h]

/-- The low byte of an address as a number. -/
theorem addressByte_eq (a : BitVec 16) : addressByte a = BitVec.ofNat 8 a.toNat :=
  BitVec.eq_of_toNat_eq (by simp [addressByte])

/-- The two command bytes as numbers (30_encoding.md R96). -/
theorem commandBytes_eq (a : BitVec 16) :
    commandBytes a = [BitVec.ofNat 8 (a.toNat / 256), BitVec.ofNat 8 a.toNat] := by
  simp only [commandBytes, List.cons.injEq, and_true]
  exact ⟨BitVec.eq_of_toNat_eq (by simp [BitVec.extractLsb'_toNat, Nat.shiftRight_eq_div_pow]),
    BitVec.eq_of_toNat_eq (by simp)⟩

/-- Every frame operation is the shared one, on the bytes and the vector of the claims. -/
theorem execFrame_eq (f : Frame) (s : State) :
    execFrame f s = runFrame (frameTx s f) (framePecr s s.pecr f) (hlen f.fmt) f.dlen.toNat
      (tlen f.fmt) (f.fmt == .c && f.rd) s := by
  obtain ⟨_ | _ | _, _ | _, a, n, v⟩ := f <;>
    simp [execFrame, execRdA, execWrA, execRdB, execWrB, execRdC, execWrC, frameTx, frameHeader,
      frameData, frameTail, framePecr, frameCommand, headerA, headerB, headerC, writeTail,
      controlByteA_eq, controlByteB_eq, addressByte_eq, commandBytes_eq, bytesBe_eq_digitsOf,
      fillBytes, Config.fill] <;> rfl

/-! ### PARSE -/

/-- The machine's echo check is that of the claims. -/
theorem echoNonzero_eq (h : Nat) (sl : List Byte) :
    echoNonzero h sl = !(sl.take h).all (fun b => b.toNat == 0) := by
  simp only [echoNonzero]
  generalize sl.take h = l
  induction l with
  | nil => rfl
  | cons b bs ih =>
    simp only [List.any_cons, List.all_cons, ih, Bool.not_and]
    congr 1
    rw [bne, Bool.eq_iff_iff]
    simp [← BitVec.toNat_inj]

/-- PARSE of a frame on a slice of its length: the check that fails, or the result (R143 to R149). -/
theorem execFrame_parse {f : Frame} {s : State} {sl : List Byte} (hp : s.phase = .parse)
    (hl : sl.length = frameCount f) (hs : SliceAt s sl) :
    execFrame f s =
      match parseSlice s f sl with
      | .error e => .next (abort e { s with pecr := slicePecr s s.pecr f sl })
      | .ok v => deliver v (frameCount f) { s with pecr := slicePecr s s.pecr f sl } := by
  have hr : memRead s.rxb s.ofs.toNat (hlen f.fmt + f.dlen.toNat + tlen f.fmt) = sl := by
    have : hlen f.fmt + f.dlen.toNat + tlen f.fmt = sl.length := by rw [hl, frameCount]
    rw [this]
    exact memRead_of_bytes hs
  have hv := (be_eq (sliceBytes f sl)).symm
  have hd : (sl.drop (hlen f.fmt)).take f.dlen.toNat = sliceBytes f sl := rfl
  rw [execFrame_eq, runFrame_parse hp]
  simp only [parseFrame, hr, sliceData, hd, parseSlice, slicePecr, echoFails, fieldFails]
  rw [if_neg (by simpa [frameCount] using hl)]
  rw [hv]
  simp only [echoNonzero_eq]
  by_cases he : (s.echoChk && !(sl.take (hlen f.fmt)).all (fun b => b.toNat == 0)) = true
  · simp only [he, if_true, Bool.not_true, Bool.and_false, Bool.false_eq_true, if_false]
  · rw [Bool.not_eq_true] at he
    simp only [he, Bool.false_eq_true, if_false]
    by_cases hc : (f.fmt == Fmt.c && f.rd) = true
    · simp only [hc, if_true, Bool.true_and, Bool.not_false, bne_iff_ne, ne_eq, ite_not]
      by_cases hq : sl.drop (hlen f.fmt + f.dlen.toNat) = s.pecBytes (sliceBytes f sl)
      · rw [if_pos hq, if_pos hq]
        rfl
      · rw [if_neg hq, if_neg hq]
    · rw [Bool.not_eq_true] at hc
      simp only [hc, Bool.false_and, Bool.false_eq_true, if_false]
      rfl

end Sys2Proof.Laws
end

