-- ==== Sys2Proof/Laws/Walks.lean ====
section
/-! SUPPORT. What the two walks of EXEC do, said once each (42_batcher.md R206, R210). -/

namespace Sys2Proof.Laws

open Sys2Proof.Machine

/-- The number of bytes of a list of frames. -/
theorem flatMap_frameTx_length (s : State) (fs : List Frame) :
    (fs.flatMap (frameTx s)).length = (fs.map frameCount).sum := by
  simp [List.length_flatMap]

theorem ofs_add {o : BitVec 32} {n k : Nat} (h : o.toNat = n) :
    o + BitVec.ofNat 32 k = BitVec.ofNat 32 (n + k) := by
  apply BitVec.eq_of_toNat_eq
  simp [h]

theorem fp_add {o : BitVec 16} {n k : Nat} (h : o.toNat = n) :
    o + BitVec.ofNat 16 k = BitVec.ofNat 16 (n + k) := by
  apply BitVec.eq_of_toNat_eq
  simp [h]

/-- The encode walk over frames whose bytes fit TXB: they follow what TXB already holds, OFS and FP
advance over them, PECR is as the last format C frame leaves it. -/
theorem walk_encode {ds : List Descriptor} {fs : List Frame}
    (hd : ds.map decodeFrame = fs.map Except.ok) (s : State) (held : List Byte)
    (hp : s.phase = .encode) (ht : s.txb = Memory.cells 0 held) (ho : s.ofs.toNat = held.length)
    (hb : held.length + (fs.map frameCount).sum ≤ bufmax s.params) (hw : bufmax s.params < 2 ^ 32) :
    walk ds s = .next { s with
      txb := Memory.cells 0 (held ++ fs.flatMap (frameTx s))
      ofs := BitVec.ofNat 32 (held.length + (fs.map frameCount).sum)
      fp := s.fp + BitVec.ofNat 16 fs.length
      pecr := fs.foldl (framePecr s) s.pecr } := by
  induction ds generalizing fs s held with
  | nil =>
    cases fs with
    | cons f fs => simp at hd
    | nil =>
      have h1 : BitVec.ofNat 32 held.length = s.ofs := by rw [← ho]; simp
      simp [← ht, h1]
  | cons d ds ih =>
    cases fs with
    | nil => simp at hd
    | cons f fs =>
      simp only [List.map_cons, List.cons.injEq] at hd
      simp only [List.map_cons, List.sum_cons] at hb
      have he := encodeFrame_fits (tx := frameTx s f) (s := s) (framePecr s s.pecr f)
        (by rw [frameTx_length, ho]; omega)
      rw [walk_cons_ok hd.1, execFrame_eq, runFrame_encode hp, he, onNext_next, if_pos rfl, frameTx_length,
        ofs_add ho]
      have hm : memWrite s.txb s.ofs.toNat (frameTx s f) = Memory.cells 0 (held ++ frameTx s f) := by
        rw [ht, ho, memWrite_cells_end]
      have h := ih hd.2
        { s with
          txb := Memory.cells 0 (held ++ frameTx s f)
          ofs := BitVec.ofNat 32 (held.length + frameCount f)
          fp := s.fp + 1#16
          pecr := framePecr s s.pecr f }
        (held ++ frameTx s f) hp rfl
        (by simp only [BitVec.toNat_ofNat, List.length_append, frameTx_length]; omega)
        (by simp only [List.length_append, frameTx_length]; simp only [bufmax] at hb ⊢; omega) hw
      have hf : s.fp + 1#16 + BitVec.ofNat 16 fs.length = s.fp + BitVec.ofNat 16 (f :: fs).length := by
        rw [BitVec.add_assoc, List.length_cons, Nat.add_comm, BitVec.ofNat_add]
      rw [hm]
      refine h.trans ?_
      simp only [hf, List.length_append, frameTx_length, List.map_cons, List.sum_cons, Nat.add_assoc,
        List.flatMap_cons, List.append_assoc, List.foldl_cons]
      rfl

/-- Parsing a slice depends on the state through PEC_W, CTRL.ECHO_CHK, PEC_SEED and PEC_TAPS only. -/
theorem parseSlice_congr {s t : State} (h : t.params = s.params) (h1 : t.echoChk = s.echoChk)
    (h2 : t.pecSeed = s.pecSeed) (h3 : t.pecTaps = s.pecTaps) (f : Frame) (sl : List Byte) :
    parseSlice t f sl = parseSlice s f sl ∧
      ∀ p, slicePecr t p f sl = slicePecr s p f sl := by
  have e1 : echoFails t f sl = echoFails s f sl := by rw [echoFails, echoFails, h1]
  have e2 : t.pecOf = s.pecOf := funext fun l => (pecOf_congr h h2 h3 l).1
  have e3 : fieldFails t f sl = fieldFails s f sl := by
    rw [fieldFails, fieldFails, (pecOf_congr h h2 h3 _).2]
  exact ⟨by rw [parseSlice, parseSlice, e1, e3], fun p => by rw [slicePecr, slicePecr, e1, e2]⟩

/-- So does parsing the slices of a list of frames. -/
theorem parseQueue_congr {s t : State} (h : t.params = s.params) (h1 : t.echoChk = s.echoChk)
    (h2 : t.pecSeed = s.pecSeed) (h3 : t.pecTaps = s.pecTaps) (fs : List Frame) (rx : List Byte) :
    parseQueue t fs rx = parseQueue s fs rx := by
  induction fs generalizing rx with
  | nil => rfl
  | cons f fs ih => rw [parseQueue, parseQueue, ih, (parseSlice_congr h h1 h2 h3 f _).1]

/-- So does the vector the parse walk leaves in PECR, apart from the vector it finds there. -/
theorem parsePecr_congr {s t : State} (h : t.params = s.params) (h1 : t.echoChk = s.echoChk)
    (h2 : t.pecSeed = s.pecSeed) (h3 : t.pecTaps = s.pecTaps) (p : PecReg) (fs : List Frame) (rx : List Byte) :
    parsePecr t p fs rx = parsePecr s p fs rx := by
  induction fs generalizing p rx with
  | nil => rfl
  | cons f fs ih =>
    have g := parseSlice_congr h h1 h2 h3 f (rx.take (frameCount f))
    rw [parsePecr, parsePecr, g.1, g.2, ih]

/-! ### PECR keeps PEC_W bits (10_state.md R27) -/

theorem framePecr_lt {s : State} {p : PecReg} (h : p.toNat < 2 ^ s.pecW) (f : Frame) :
    (framePecr s p f).toNat < 2 ^ s.pecW := by
  unfold framePecr
  split
  · exact h
  · exact h
  · split <;> exact pecOf_lt s _

theorem foldl_framePecr_lt {s : State} {p : PecReg} (h : p.toNat < 2 ^ s.pecW) (fs : List Frame) :
    (fs.foldl (framePecr s) p).toNat < 2 ^ s.pecW := by
  induction fs generalizing p with
  | nil => exact h
  | cons f fs ih => exact ih (framePecr_lt h f)

theorem slicePecr_lt {s : State} {p : PecReg} (h : p.toNat < 2 ^ s.pecW) (f : Frame) (sl : List Byte) :
    (slicePecr s p f sl).toNat < 2 ^ s.pecW := by
  unfold slicePecr
  split
  · exact pecOf_lt s _
  · exact h

theorem parsePecr_lt {s : State} {p : PecReg} (h : p.toNat < 2 ^ s.pecW) (fs : List Frame)
    (rx : List Byte) : (parsePecr s p fs rx).toNat < 2 ^ s.pecW := by
  induction fs generalizing p rx with
  | nil => exact h
  | cons f fs ih =>
    unfold parsePecr
    split
    · exact slicePecr_lt h f _
    · exact ih (slicePecr_lt h f _) _

/-- The parse walk over frames whose slices lie in RXB: every result delivered in order, or the abort
of the first frame that raises, FP and OFS at that frame. -/
theorem walk_parse {ds : List Descriptor} {fs : List Frame}
    (hd : ds.map decodeFrame = fs.map Except.ok) (s : State)
    (rx : List Byte) (hp : s.phase = .parse) (hr : s.rxb = Memory.cells 0 rx)
    (ho : s.ofs.toNat + (fs.map frameCount).sum = rx.length) (hw : rx.length < 2 ^ 32)
    (hq : s.fp.toNat + fs.length ≤ s.params.qdepth) (hm : s.params.qdepth ≤ 65535)
    (hres : s.fp.toNat ≤ s.res.length) :
    match parseQueue s fs (rx.drop s.ofs.toNat) with
    | .ok vs =>
      vs.length = fs.length ∧
      ∃ r, r.take (s.fp.toNat + fs.length) = s.res.take s.fp.toNat ++ vs ∧
        walk ds s = .next { s with
          res := r
          ofs := BitVec.ofNat 32 rx.length
          fp := BitVec.ofNat 16 (s.fp.toNat + fs.length)
          pecr := parsePecr s s.pecr fs (rx.drop s.ofs.toNat) }
    | .error (i, e) =>
      i < fs.length ∧
      walk ds s = .next (abort e { s with
        ofs := BitVec.ofNat 32 (s.ofs.toNat + ((fs.take i).map frameCount).sum)
        fp := BitVec.ofNat 16 (s.fp.toNat + i)
        pecr := parsePecr s s.pecr fs (rx.drop s.ofs.toNat) }) := by
  induction ds generalizing fs s with
  | nil =>
    cases fs with
    | cons f fs => simp at hd
    | nil =>
      simp only [parseQueue, parsePecr, List.length_nil, Nat.add_zero, List.append_nil, walk_nil]
      simp only [List.map_nil, List.sum_nil, Nat.add_zero] at ho
      refine ⟨trivial, s.res, rfl, ?_⟩
      rw [← ho]
      simp
  | cons d ds ih =>
    cases fs with
    | nil => simp at hd
    | cons f fs =>
      simp only [List.map_cons, List.cons.injEq] at hd
      simp only [List.map_cons, List.sum_cons] at ho
      simp only [List.length_cons] at hq
      have hl : ((rx.drop s.ofs.toNat).take (frameCount f)).length = frameCount f := by
        rw [List.length_take, List.length_drop]
        omega
      have hs : SliceAt s ((rx.drop s.ofs.toNat).take (frameCount f)) := by
        intro k hk
        rw [hl] at hk
        rw [hr, byte_cells, if_pos (Nat.zero_le _), Nat.sub_zero, List.getElem?_take, if_pos hk,
          List.getElem?_drop]
      have hx := execFrame_parse hp hl hs
      rw [walk_cons_ok hd.1, hx]
      simp only [parseQueue, parsePecr]
      cases hps : parseSlice s f ((rx.drop s.ofs.toNat).take (frameCount f)) with
      | error e =>
        refine ⟨by simp, ?_⟩
        simp only [onNext_next]
        rw [if_neg (by rw [hp]; exact fun h => nomatch h)]
        simp [abort, raise]
      | ok v =>
        dsimp only
        rw [deliver_fits (s := { s with
            pecr := slicePecr s s.pecr f ((rx.drop s.ofs.toNat).take (frameCount f)) })
          v (frameCount f) (show s.fp.toNat < s.params.qdepth by omega), onNext_next,
          if_pos rfl]
        have hofs : (s.ofs + BitVec.ofNat 32 (frameCount f)).toNat = s.ofs.toNat + frameCount f := by
          rw [ofs_add rfl, BitVec.toNat_ofNat, Nat.mod_eq_of_lt (by omega)]
        have hfp : (s.fp + 1#16).toNat = s.fp.toNat + 1 := by
          rw [fp_add (k := 1) rfl, BitVec.toNat_ofNat, Nat.mod_eq_of_lt (by omega)]
        obtain ⟨u, hu⟩ : ∃ u : State, u = { s with
            res := writeResult s.res s.fp.toNat v, ofs := s.ofs + BitVec.ofNat 32 (frameCount f),
            fp := s.fp + 1#16,
            pecr := slicePecr s s.pecr f ((rx.drop s.ofs.toNat).take (frameCount f)) } := ⟨_, rfl⟩
        have h := ih hd.2 u
          (by rw [hu, hp]) (by rw [hu, hr]) (by rw [hu, hofs]; omega) (by rw [hu, hfp]; dsimp only; omega)
          (by rw [hu]; exact hm) (by rw [hu, hfp]; dsimp only; rw [writeResult_length hres]; omega)
        rw [parseQueue_congr (s := s) (by rw [hu]) (by rw [hu]) (by rw [hu]) (by rw [hu]),
          parsePecr_congr (s := s) (by rw [hu]) (by rw [hu]) (by rw [hu]) (by rw [hu])] at h
        subst hu
        dsimp only at h
        rw [hofs, hfp] at h
        rw [List.drop_drop]
        cases hpq : parseQueue s fs (rx.drop (s.ofs.toNat + frameCount f)) with
        | error p =>
          obtain ⟨i, e⟩ := p
          rw [hpq] at h
          refine ⟨Nat.succ_lt_succ h.1, h.2.trans ?_⟩
          simp only [List.take_succ_cons, List.map_cons, List.sum_cons, Nat.add_assoc, Nat.add_comm 1 i]
          rfl
        | ok vs =>
          rw [hpq] at h
          obtain ⟨h1, r, h2, h3⟩ := h
          refine ⟨congrArg (· + 1) h1, r, ?_, h3.trans ?_⟩
          · rw [List.length_cons, show s.fp.toNat + (fs.length + 1) = s.fp.toNat + 1 + fs.length by omega, h2]
            rw [writeResult_take hres]
            simp
          · rw [List.length_cons, show s.fp.toNat + (fs.length + 1) = s.fp.toNat + 1 + fs.length by omega]

end Sys2Proof.Laws
end

