-- ==== Sys2Proof/Laws/Exec.lean ====
section
/-! SUPPORT. What a whole EXEC can do from any state, said once: the state it never touches, and the ways it ends
(42_batcher.md R204, R216). -/

namespace Sys2Proof.Laws

open Sys2Proof.Machine

/-- The state no part of EXEC touches: the configuration, READY, WARN, the parameters, the inputs. -/
structure SameConfig (s t : State) : Prop where
  ready : t.ready = s.ready
  warn : t.warn = s.warn
  echoChk : t.echoChk = s.echoChk
  pecSeed : t.pecSeed = s.pecSeed
  pecTaps : t.pecTaps = s.pecTaps
  opc : t.opc = s.opc
  hwaddr : t.hwaddr = s.hwaddr
  params : t.params = s.params
  pending : t.host.pending = s.host.pending

theorem SameConfig.refl (s : State) : SameConfig s s := ⟨rfl, rfl, rfl, rfl, rfl, rfl, rfl, rfl, rfl⟩

theorem SameConfig.trans {s t u : State} (h : SameConfig s t) (g : SameConfig t u) : SameConfig s u :=
  ⟨g.1.trans h.1, g.2.trans h.2, g.3.trans h.3, g.4.trans h.4, g.5.trans h.5, g.6.trans h.6,
    g.7.trans h.7, g.8.trans h.8, g.9.trans h.9⟩

/-- `t` is what `s` becomes while EXEC goes on: the error record, DONE, the response and the queue are
as they were. -/
structure GoesOn (s t : State) : Prop extends SameConfig s t where
  err : t.err = s.err
  esub : t.esub = s.esub
  done : t.done = s.done
  dq : t.dq = s.dq
  response : t.host.response = s.host.response
  phase : t.phase = s.phase
  bus : t.bus = s.bus

theorem GoesOn.refl (s : State) : GoesOn s s :=
  ⟨SameConfig.refl s, rfl, rfl, rfl, rfl, rfl, rfl, rfl⟩

theorem GoesOn.trans {s t u : State} (h : GoesOn s t) (g : GoesOn t u) : GoesOn s u :=
  ⟨h.toSameConfig.trans g.toSameConfig, g.err.trans h.err, g.esub.trans h.esub, g.done.trans h.done,
    g.dq.trans h.dq, g.response.trans h.response, g.phase.trans h.phase, g.bus.trans h.bus⟩

/-- `t` is an EXEC aborted with `e` (60_exceptions.md R286). -/
structure Aborts (e : ErrorKind) (t : State) : Prop where
  err : t.err = e.code
  esub : t.esub = e.sub
  response : t.host.response = some { err := e.code, esub := e.sub, payload := .empty }
  res : t.res = []
  done : t.done = false
  dq : t.dq = []
  phase : t.phase = .idle

theorem aborts_abort (e : ErrorKind) (s : State) : Aborts e (abort e s) := ⟨rfl, rfl, rfl, rfl, rfl, rfl, rfl⟩

theorem sameConfig_abort (e : ErrorKind) (s : State) : SameConfig s (abort e s) :=
  ⟨rfl, rfl, rfl, rfl, rfl, rfl, rfl, rfl, rfl⟩

/-- What a frame operation can do when it goes on: advance, or, in the parse walk, abort. -/
theorem execFrame_next {f : Frame} {s t : State} (h : execFrame f s = .next t) :
    GoesOn s t ∨
      (s.phase = .parse ∧ t.bus = s.bus ∧ SameConfig s t ∧
        (Aborts .framingLen t ∨ Aborts .framingEcho t ∨ Aborts .pecMismatch t)) := by
  rw [execFrame_eq] at h
  rcases runFrame_next_phase h with hp | hp
  · rw [runFrame_encode hp] at h
    obtain ⟨-, rfl⟩ := encodeFrame_next h
    exact .inl ⟨⟨rfl, rfl, rfl, rfl, rfl, rfl, rfl, rfl, rfl⟩, rfl, rfl, rfl, rfl, rfl, rfl, rfl⟩
  · rw [runFrame_parse hp] at h
    obtain rfl | rfl | ⟨p, rfl⟩ | ⟨p, w, hd⟩ := parseFrame_next h
    · exact .inr ⟨hp, rfl, sameConfig_abort _ _, .inl (aborts_abort _ _)⟩
    · exact .inr ⟨hp, rfl, sameConfig_abort _ _, .inr (.inl (aborts_abort _ _))⟩
    · exact .inr ⟨hp, rfl, ⟨rfl, rfl, rfl, rfl, rfl, rfl, rfl, rfl, rfl⟩,
        .inr (.inr (aborts_abort _ { s with pecr := p }))⟩
    · obtain ⟨-, rfl⟩ := deliver_next hd
      exact .inl ⟨⟨rfl, rfl, rfl, rfl, rfl, rfl, rfl, rfl, rfl⟩, rfl, rfl, rfl, rfl, rfl, rfl, rfl⟩

/-- What a walk can do when it goes on: reach its end, or, in the parse walk, abort. -/
theorem walk_next {ds : List Descriptor} {s t : State} (h : walk ds s = .next t) :
    GoesOn s t ∨
      (s.phase = .parse ∧ t.bus = s.bus ∧ SameConfig s t ∧
        (Aborts .framingLen t ∨ Aborts .framingEcho t ∨ Aborts .pecMismatch t)) := by
  induction ds generalizing s with
  | nil =>
    cases h
    exact .inl (GoesOn.refl _)
  | cons d ds ih =>
    simp only [walk] at h
    split at h
    · cases h
    · obtain ⟨u, hu, h⟩ := onNext_eq_next.mp h
      rcases execFrame_next hu with g | ⟨hp, hb, g, ha⟩
      · rw [if_pos g.phase] at h
        rcases ih h with k | ⟨kp, kb, k, ka⟩
        · exact .inl (g.trans k)
        · exact .inr ⟨g.phase ▸ kp, kb.trans g.bus, g.toSameConfig.trans k, ka⟩
      · have hi : u.phase ≠ s.phase := by
          rw [hp]
          rcases ha with a | a | a <;> rw [a.phase] <;> exact fun x => nomatch x
        rw [if_neg hi] at h
        cases h
        exact .inr ⟨hp, hb, g, ha⟩

/-- The ways an EXEC can end when it goes on: refused while READY is 0; waiting for ever; aborted with
one of four errors; or complete. -/
inductive ExecEnds (s t : State) : Prop where
  | refused (h : s.ready = false) (ht : t = raise .stateNotReady s)
  | waits (c : SameConfig s t) (err : t.err = s.err) (esub : t.esub = s.esub) (done : t.done = s.done)
      (phase : t.phase = .transfer) (response : t.host.response = none)
  | aborts (c : SameConfig s t) (e : ErrorKind)
      (he : e = .framingLen ∨ e = .framingEcho ∨ e = .pecMismatch ∨ e = .transportIo) (a : Aborts e t)
  | completes (c : SameConfig s t) (err : t.err = s.err) (esub : t.esub = s.esub) (done : t.done = true)
      (phase : t.phase = .idle) (dq : t.dq = [])
      (response : t.host.response = some { err := 0#4, esub := 0#4, payload := .empty })

/-- What EXEC can do when it goes on. -/
theorem execExec_next {s t : State} (h : execExec s = .next t) : ExecEnds s t := by
  unfold execExec at h
  split at h
  · obtain ⟨u, hu, h⟩ := onNext_eq_next.mp h
    obtain g : GoesOn (beginEncode s) u := by
      rcases walk_next hu with g | ⟨hp, -⟩
      · exact g
      · cases hp
    have gc : SameConfig s u := ⟨g.ready, g.warn, g.echoChk, g.pecSeed, g.pecTaps, g.opc, g.hwaddr,
      g.params, g.pending⟩
    obtain ⟨-, hx⟩ | ⟨-, hx⟩ | ⟨rx, -, ⟨-, hx⟩ | ⟨-, hx⟩⟩ := transfer_cases u
    · rw [hx, finishExec, if_neg (by simp)] at h
      cases h
      exact .waits ⟨gc.1, gc.2, gc.3, gc.4, gc.5, gc.6, gc.7, gc.8, gc.9⟩ g.err g.esub g.done rfl rfl
    · rw [hx, finishExec, if_neg (by simp)] at h
      cases h
      exact .aborts ⟨gc.1, gc.2, gc.3, gc.4, gc.5, gc.6, gc.7, gc.8, gc.9⟩ .transportIo
        (.inr (.inr (.inr rfl))) (aborts_abort _ _)
    · rw [hx, finishExec, if_pos (by simp)] at h
      obtain ⟨v, hv, h⟩ := onNext_eq_next.mp h
      rcases walk_next hv with k | ⟨-, -, k, ka⟩
      · rw [if_pos (show v.phase = .parse from k.phase)] at h
        cases h
        have kc := k.toSameConfig
        exact .completes
          (gc.trans ⟨kc.1, kc.2, kc.3, kc.4, kc.5, kc.6, kc.7, kc.8, kc.9⟩)
          (k.err.trans g.err) (k.esub.trans g.esub) rfl rfl rfl rfl
      · have hi : v.phase = .idle := by rcases ka with a | a | a <;> exact a.phase
        rw [if_neg (by rw [hi]; exact fun x => nomatch x)] at h
        cases h
        have c : SameConfig s t := gc.trans ⟨k.1, k.2, k.3, k.4, k.5, k.6, k.7, k.8, k.9⟩
        rcases ka with a | a | a
        · exact .aborts c _ (.inl rfl) a
        · exact .aborts c _ (.inr (.inl rfl)) a
        · exact .aborts c _ (.inr (.inr (.inl rfl))) a
    · rw [hx, finishExec, if_neg (by simp)] at h
      cases h
      exact .aborts ⟨gc.1, gc.2, gc.3, gc.4, gc.5, gc.6, gc.7, gc.8, gc.9⟩ .framingLen (.inl rfl)
        (aborts_abort _ _)
  · cases h
    exact .refused (by simpa using ‹¬s.ready = true›) rfl

end Sys2Proof.Laws
end

