-- ==== Sys2Proof/Laws/PerInstr.lean ====
section
/-! SUPPORT. The family MatchesRow: the first word of every well-formed instruction's encoding matches its row of
spec/opcode_table.json (30_encoding.md R101, R108). -/

namespace Sys2Proof.Laws

/-- The word the opcode table's match and mask are over: DW0 of a descriptor, CW of a message. -/
def firstWord (c : Code) : Word :=
  match c with
  | .host m => m.cw
  | .desc d => d.dw0

/-- The "mask" column of spec/opcode_table.json. -/
def rowMask (i : Instr) : Word :=
  match i with
  | .rdA _ _ _ => 0xFFFFC087#32
  | .wrA _ _ _ => 0xFFFFC087#32
  | .rdB _ _ _ => 0xFFFF0087#32
  | .wrB _ _ _ => 0xFFFF0087#32
  | .rdC _ _ _ => 0xFF000087#32
  | .wrC _ _ _ => 0xFF000087#32
  | .reset => 0xFFFFFFFF#32
  | .csrRd _ => 0xFFFF00FF#32
  | .csrWr _ _ => 0xFFFF00FF#32
  | .init _ _ _ => 0xFFFFFFFF#32
  | .errClr => 0xFFFFFFFF#32
  | .dqPush _ _ => 0xFFFFFFFF#32
  | .dqClr => 0xFFFFFFFF#32
  | .exec => 0xFFFFFFFF#32
  | .resRd _ => 0x0000FFFF#32
  | .pecCalc _ => 0x0000FFFF#32
  | .pecChk _ _ _ => 0x0000FFFF#32

/-- The "match" column of spec/opcode_table.json. -/
def rowMatch (i : Instr) : Word :=
  match i with
  | .rdA _ _ _ => 0x00000001#32
  | .wrA _ _ _ => 0x00000000#32
  | .rdB _ _ _ => 0x00000003#32
  | .wrB _ _ _ => 0x00000002#32
  | .rdC _ _ _ => 0x00000005#32
  | .wrC _ _ _ => 0x00000004#32
  | .reset => 0x00000001#32
  | .csrRd _ => 0x00000002#32
  | .csrWr _ _ => 0x00000003#32
  | .init _ _ _ => 0x00000004#32
  | .errClr => 0x00000005#32
  | .dqPush _ _ => 0x00000010#32
  | .dqClr => 0x00000011#32
  | .exec => 0x00000012#32
  | .resRd _ => 0x00000013#32
  | .pecCalc _ => 0x00000020#32
  | .pecChk _ _ _ => 0x00000021#32

/-- The first word of the encoding matches the row. -/
def MatchesRow.Statement (i : Instr) : Prop :=
  i.WellFormed = true → firstWord (encode i) &&& rowMask i = rowMatch i


/-! ### The bits of the two kinds of first word -/

/-- Bit `i` of DW0 (30_encoding.md R100). -/
theorem dw0_bit (f : Frame) (i : Nat) : f.descriptor.dw0.getLsbD i =
    if i < 1 then f.rd else if i < 3 then f.fmt.code.getLsbD (i - 1)
    else if i < 7 then f.dlen.getLsbD (i - 3) else if i < 8 then false
    else f.addr.getLsbD (i - 8) := by
  show BitVec.getLsbD (0#8 ++ f.addr ++ 0#1 ++ f.dlen ++ f.fmt.code ++ BitVec.ofBool f.rd) i = _
  simp only [BitVec.getLsbD_append, BitVec.getLsbD_ofBool, BitVec.getLsbD_zero]
  split_ifs <;> first
    | omega
    | rfl
    | exact congrArg _ (by omega)
    | exact (BitVec.getLsbD_of_ge _ _ (by omega)).symm
    | (simp only [show i = 0 by omega]; simp)

/-- Bit `i` of a command word (30_encoding.md R107). -/
theorem commandWord_bit (o : HostOp) (a : BitVec 8) (b : BitVec 16) (i : Nat) :
    (commandWord o a b).getLsbD i =
      if i < 8 then o.code.getLsbD i else if i < 16 then a.getLsbD (i - 8) else b.getLsbD (i - 16) := by
  show BitVec.getLsbD (b ++ a ++ o.code) i = _
  simp only [BitVec.getLsbD_append]
  split_ifs <;> first | omega | rfl

/-- An address below 2^n has no bit from `n` up. -/
theorem addr_bit_small {a : BitVec 16} {n : Nat} (h : a.toNat < 2 ^ n) (i : Nat) (hi : i < 16)
    (hn : n ≤ i) : a[i] = false := by
  rw [← BitVec.getLsbD_eq_getElem]
  exact Nat.testBit_lt_two_pow (lt_of_lt_of_le h (Nat.pow_le_pow_right (by omega) hn))

/-- Words agree on a mask where they agree on each bit of it. -/
theorem and_mask_eq {w m r : Word}
    (h : ∀ i, i < 32 → (w.getLsbD i && m.getLsbD i) = r.getLsbD i) : w &&& m = r :=
  BitVec.eq_of_getLsbD_eq fun i hi => by rw [BitVec.getLsbD_and]; exact h i hi

/-! ### One lemma per constructor -/

theorem MatchesRow.rdA (a : BitVec 16) (n : BitVec 4) (v : DWord) :
    MatchesRow.Statement (.rdA a n v) := by
  intro h
  simp only [Instr.WellFormed, Frame.legal, addrOk, Bool.and_eq_true, decide_eq_true_eq] at h
  have ha := addr_bit_small (n := 6) h.1.1
  refine and_mask_eq fun i hi => ?_
  simp only [encode, firstWord, rowMask, rowMatch, dw0_bit, Fmt.code]
  interval_cases i <;> simp [ha]

theorem MatchesRow.wrA (a : BitVec 16) (n : BitVec 4) (v : DWord) :
    MatchesRow.Statement (.wrA a n v) := by
  intro h
  simp only [Instr.WellFormed, Frame.legal, addrOk, Bool.and_eq_true, decide_eq_true_eq] at h
  have ha := addr_bit_small (n := 6) h.1.1
  refine and_mask_eq fun i hi => ?_
  simp only [encode, firstWord, rowMask, rowMatch, dw0_bit, Fmt.code]
  interval_cases i <;> simp [ha]

theorem MatchesRow.rdB (a : BitVec 16) (n : BitVec 4) (v : DWord) :
    MatchesRow.Statement (.rdB a n v) := by
  intro h
  simp only [Instr.WellFormed, Frame.legal, addrOk, Bool.and_eq_true, decide_eq_true_eq] at h
  have ha := addr_bit_small (n := 8) h.1.1
  refine and_mask_eq fun i hi => ?_
  simp only [encode, firstWord, rowMask, rowMatch, dw0_bit, Fmt.code]
  interval_cases i <;> simp [ha]

theorem MatchesRow.wrB (a : BitVec 16) (n : BitVec 4) (v : DWord) :
    MatchesRow.Statement (.wrB a n v) := by
  intro h
  simp only [Instr.WellFormed, Frame.legal, addrOk, Bool.and_eq_true, decide_eq_true_eq] at h
  have ha := addr_bit_small (n := 8) h.1.1
  refine and_mask_eq fun i hi => ?_
  simp only [encode, firstWord, rowMask, rowMatch, dw0_bit, Fmt.code]
  interval_cases i <;> simp [ha]

theorem MatchesRow.rdC (a : BitVec 16) (n : BitVec 4) (v : DWord) :
    MatchesRow.Statement (.rdC a n v) := by
  intro _
  refine and_mask_eq fun i hi => ?_
  simp only [encode, firstWord, rowMask, rowMatch, dw0_bit, Fmt.code]
  interval_cases i <;> simp

theorem MatchesRow.wrC (a : BitVec 16) (n : BitVec 4) (v : DWord) :
    MatchesRow.Statement (.wrC a n v) := by
  intro _
  refine and_mask_eq fun i hi => ?_
  simp only [encode, firstWord, rowMask, rowMatch, dw0_bit, Fmt.code]
  interval_cases i <;> simp

theorem MatchesRow.reset : MatchesRow.Statement (.reset) :=
  fun _ => rfl

theorem MatchesRow.errClr : MatchesRow.Statement (.errClr) :=
  fun _ => rfl

theorem MatchesRow.dqClr : MatchesRow.Statement (.dqClr) :=
  fun _ => rfl

theorem MatchesRow.exec : MatchesRow.Statement (.exec) :=
  fun _ => rfl

theorem MatchesRow.init (b m e : Word) : MatchesRow.Statement (.init b m e) :=
  fun _ => show commandWord .init 0#8 0#16 &&& 0xFFFFFFFF#32 = 0x00000004#32 by decide

theorem MatchesRow.dqPush (w : Word) (d : DWord) : MatchesRow.Statement (.dqPush w d) :=
  fun _ => show commandWord .dqPush 0#8 0#16 &&& 0xFFFFFFFF#32 = 0x00000010#32 by decide

theorem MatchesRow.csrRd (k : BitVec 8) : MatchesRow.Statement (.csrRd k) := by
  intro _
  refine and_mask_eq fun j hj => ?_
  simp only [encode, firstWord, wordMessage, rowMask, rowMatch, commandWord_bit, HostOp.code]
  interval_cases j <;> simp

theorem MatchesRow.csrWr (k : BitVec 8) (v : Word) : MatchesRow.Statement (.csrWr k v) := by
  intro _
  refine and_mask_eq fun j hj => ?_
  simp only [encode, firstWord, wordMessage, rowMask, rowMatch, commandWord_bit, HostOp.code]
  interval_cases j <;> simp

theorem MatchesRow.resRd (i : BitVec 16) : MatchesRow.Statement (.resRd i) := by
  intro _
  refine and_mask_eq fun j hj => ?_
  simp only [encode, firstWord, wordMessage, rowMask, rowMatch, commandWord_bit, HostOp.code]
  interval_cases j <;> simp

theorem MatchesRow.pecCalc (l : List Byte) : MatchesRow.Statement (.pecCalc l) := by
  intro _
  refine and_mask_eq fun j hj => ?_
  simp only [encode, firstWord, byteMessage, rowMask, rowMatch, commandWord_bit, HostOp.code]
  interval_cases j <;> simp

theorem MatchesRow.pecChk (l : List Byte) (p q : Byte) : MatchesRow.Statement (.pecChk l p q) := by
  intro _
  refine and_mask_eq fun j hj => ?_
  simp only [encode, firstWord, byteMessage, rowMask, rowMatch, commandWord_bit, HostOp.code]
  interval_cases j <;> simp

end Sys2Proof.Laws
end

