-- ==== Sys2Proof/Tests/Slice0.lean ====
section
/-! SUPPORT. Tests. Expected values are the spec's (95_test_vectors.md, or the examples of the rules named); the
witnesses show, for each statement with hypotheses, concrete values that meet them. -/

namespace Sys2Proof.Tests

open Sys2Proof Sys2Proof.Machine

/-! ### Small states -/

/-- The parameters of the test bench TB of 95_test_vectors.md, PEC_W at its default. -/
def tb : Params :=
  { pecTapsRst := 0x4599#15, qdepth := 16, supportedModes := 1#4, speedMin := 0, speedMax := 10000000 }

/-- TB right after reset. -/
def bench : State := State.resetWith tb

/-- TB with another PEC_W and other reset taps, right after reset. -/
def benchOf (w : PecWidth) (taps : BitVec w.val) : State :=
  State.resetWith { tb with pecW := w, pecTapsRst := taps }

/-- TB with a validated bus. -/
def live : State := { bench with ready := true }

/-- `s` with descriptors queued and the answers of XPORT fixed. -/
def loaded (s : State) (ds : List Descriptor) (script : List TransportAnswer) : State :=
  { s with dq := ds, bus := { script := script, sent := [] } }

/-- `s` with inputs at the command port. -/
def presented (s : State) (inputs : List HostInput) : State :=
  { s with host := { pending := inputs, response := none } }

/-- `s` about to encode one descriptor, OPC = 4 and HWADDR = 5 in BUSFMT. -/
def encoding (d : Descriptor) : State :=
  { live with dq := [d], opc := 4#4, hwaddr := 5#3, phase := .encode }

/-- `s` about to parse one descriptor on a received slice. -/
def parsing (chk : Bool) (d : Descriptor) (rx : List Byte) : State :=
  { live with dq := [d], echoChk := chk, phase := .parse, rxb := Memory.cells 0 rx }

/-- A field of the next state. -/
def after {α : Type} (r : Result) (f : State → α) : Option α :=
  match r with
  | .next t => some (f t)
  | .fault _ => none
  | .refused _ => none

/-- The response in the next state. -/
def answer (r : Result) : Option (Option Response) := after r (fun t => t.host.response)

def rdA3 : Descriptor := ⟨0x00000119#32, 0#64⟩
def wrA2 : Descriptor := ⟨0x00000210#32, 0xBEEF#64⟩
def rdB1 : Descriptor := ⟨0x0000120B#32, 0#64⟩
def wrB1 : Descriptor := ⟨0x00000A0A#32, 0x3C#64⟩
def rdC6 : Descriptor := ⟨0x00810435#32, 0#64⟩
def wrC6 : Descriptor := ⟨0x00000134#32, 0x123456789ABC#64⟩

/-! ### WellFormed: an ill-formed term for each check -/

theorem test_wf_addr_a : Instr.WellFormed (.rdA 0x40#16 1#4 0#64) = false := by decide
theorem test_wf_addr_b : Instr.WellFormed (.wrB 0x100#16 1#4 0#64) = false := by decide
theorem test_wf_dlen_low : Instr.WellFormed (.rdC 0#16 0#4 0#64) = false := by decide
theorem test_wf_dlen_high : Instr.WellFormed (.rdC 0#16 9#4 0#64) = false := by decide
theorem test_wf_value : Instr.WellFormed (.wrA 0#16 1#4 0x100#64) = false := by decide
theorem test_wf_read_value_free : Instr.WellFormed (.rdA 0x3F#16 8#4 (-1#64)) = true := by decide
theorem test_wf_calc_length (l : List Byte) (h : l.length = 65536) :
    Instr.WellFormed (.pecCalc l) = false := by simp [Instr.WellFormed, h]
theorem test_wf_check_length (l : List Byte) (h : l.length = 65536) :
    Instr.WellFormed (.pecChk l 0#8 0#8) = false := by simp [Instr.WellFormed, h]

/-! ### Decoding: words written out from 30_encoding.md R100, R107 and R108 -/

theorem test_decode_rdA : -- ADDR 0x2A at 23:8, DLEN 8 at 6:3, FMT 0, RD 1 (V1.4)
    decode (.desc ⟨0b00000000000000000010101001000001#32, 0#64⟩) = .ok (.rdA 0x2A#16 8#4 0#64) := by decide
theorem test_decode_wrA : -- V1.7
    decode (.desc ⟨0b00000000000000000001010100011000#32, 0x010203#64⟩)
      = .ok (.wrA 0x15#16 3#4 0x010203#64) := by decide
theorem test_decode_rdB : -- V1.13
    decode (.desc ⟨0b00000000000000001111111100010011#32, 0#64⟩) = .ok (.rdB 0xFF#16 2#4 0#64) := by decide
theorem test_decode_wrB : -- V1.14
    decode (.desc ⟨0b00000000000000000000000000011010#32, 0xABCDEF#64⟩)
      = .ok (.wrB 0#16 3#4 0xABCDEF#64) := by decide
theorem test_decode_rdC : -- V1.20
    decode (.desc ⟨0b00000000100000010000010000010101#32, 0#64⟩) = .ok (.rdC 0x8104#16 2#4 0#64) := by decide
theorem test_decode_wrC : -- V1.26
    decode (.desc ⟨0b00000000111111111111111101000100#32, 0xFFFFFFFFFFFFFFFF#64⟩)
      = .ok (.wrC 0xFFFF#16 8#4 0xFFFFFFFFFFFFFFFF#64) := by decide
theorem test_decode_reset : decode (.host ⟨0x00000001#32, [], []⟩) = .ok .reset := by decide
theorem test_decode_csrRd : decode (.host ⟨0x00000A02#32, [], []⟩) = .ok (.csrRd 10#8) := by decide
theorem test_decode_csrWr :
    decode (.host ⟨0x00000503#32, [0x4A#32], []⟩) = .ok (.csrWr 5#8 0x4A#32) := by decide
theorem test_decode_init :
    decode (.host ⟨0x00000004#32, [0x800#32, 1000000#32, 7#32], []⟩)
      = .ok (.init 0x800#32 1000000#32 7#32) := by decide
theorem test_decode_errClr : decode (.host ⟨0x00000005#32, [], []⟩) = .ok .errClr := by decide
theorem test_decode_dqPush : -- DQ.PUSH of V1.23, low word of DW1 first
    decode (.host ⟨0x00000010#32, [0x00000134#32, 0x56789ABC#32, 0x00001234#32], []⟩)
      = .ok (.dqPush 0x134#32 0x0000123456789ABC#64) := by decide
theorem test_decode_dqClr : decode (.host ⟨0x00000011#32, [], []⟩) = .ok .dqClr := by decide
theorem test_decode_exec : decode (.host ⟨0x00000012#32, [], []⟩) = .ok .exec := by decide
theorem test_decode_resRd : decode (.host ⟨0xFFFF0013#32, [], []⟩) = .ok (.resRd 0xFFFF#16) := by decide
theorem test_decode_pecCalc :
    decode (.host ⟨0x00020020#32, [], [0x00#8, 0x01#8]⟩) = .ok (.pecCalc [0x00#8, 0x01#8]) := by decide
theorem test_decode_pecChk :
    decode (.host ⟨0x00020021#32, [], [0x00#8, 0x01#8, 0x3D#8, 0x6F#8]⟩)
      = .ok (.pecChk [0x00#8, 0x01#8] 0x3D#8 0x6F#8) := by decide
theorem test_reserved_fmt : decode (.desc ⟨0x0000000F#32, 0#64⟩) = .error .reservedFmt := by decide
theorem test_reserved_bits : decode (.desc ⟨0x00000089#32, 0#64⟩) = .error .reservedBits ∧
    decode (.desc ⟨0x01000009#32, 0#64⟩) = .error .reservedBits := by decide
theorem test_unlisted_op : decode (.host ⟨0x00000000#32, [], []⟩) = .error .unknownOp ∧
    decode (.host ⟨0x00000022#32, [], []⟩) = .error .unknownOp := by decide
theorem test_unused_field : decode (.host ⟨0x00000120#32, [], []⟩) = .error .unusedField ∧
    decode (.host ⟨0x00010012#32, [], []⟩) = .error .unusedField := by decide -- V2.28, V4
theorem test_operand_count : decode (.host ⟨0x00000003#32, [], []⟩) = .error .operandCount := by decide

/-! ### Words of the opcode table, and where withFetchWord puts them -/

theorem test_table_command : decodeTableWord 32 0x12 = some .exec := by decide
theorem test_table_descriptor : decodeTableWord 32 0x119 = some (.rdA 1#16 3#4 0#64) := by decide
theorem test_fetch_command : step (bench.withFetchWord 32 0x01) = exec .reset bench := rfl
theorem test_fetch_descriptor :
    after (step (bench.withFetchWord 32 0x119)) (fun t => t.txb)
      = some (Memory.cells 0 [0x05#8, 0xFF#8, 0xFF#8, 0xFF#8]) := by decide

/-! ### Frame operations: one step in each walk -/

theorem test_rdA_encode : -- V1.3
    after (step (encoding rdA3)) (fun t => (t.txb, t.ofs, t.fp))
      = some (Memory.cells 0 [0x05#8, 0xFF#8, 0xFF#8, 0xFF#8], 4#32, 1#16) := by decide
theorem test_rdA_parse : -- R130
    after (step (parsing false rdA3 [0x00#8, 0x12#8, 0x34#8, 0x56#8])) (fun t => (t.res, t.ofs, t.fp))
      = some ([0x123456#64], 4#32, 1#16) := by decide
theorem test_wrA_encode : -- V1.5
    after (step (encoding wrA2)) (fun t => t.txb) = some (Memory.cells 0 [0x08#8, 0xBE#8, 0xEF#8]) := by
  decide
theorem test_wrA_parse_echo : -- R146
    after (step (parsing true wrA2 [0x01#8, 0xBE#8, 0xEF#8])) (fun t => (t.err, t.esub, t.res, t.dq))
      = some (2#4, 2#4, [], []) := by decide
theorem test_rdB_encode : -- V1.11
    after (step (encoding rdB1)) (fun t => t.txb) = some (Memory.cells 0 [0x4B#8, 0x12#8, 0xFF#8]) := by
  decide
theorem test_rdB_parse : -- R132
    after (step (parsing true rdB1 [0x00#8, 0x00#8, 0xA5#8])) (fun t => t.res) = some [0xA5#64] := by decide
theorem test_wrB_encode : -- V1.12
    after (step (encoding wrB1)) (fun t => t.txb) = some (Memory.cells 0 [0x4A#8, 0x0A#8, 0x3C#8]) := by
  decide
theorem test_wrB_parse : -- R133
    after (step (parsing false wrB1 [0x00#8, 0x00#8, 0x00#8])) (fun t => t.res) = some [0#64] := by decide
theorem test_rdC_encode : -- V1.19
    after (step (encoding rdC6)) (fun t => (t.txb.map Prod.snd, t.pecr))
      = some ([0x81#8, 0x04#8, 0xFF#8, 0x9A#8, 0xFF#8, 0xFF#8, 0xFF#8, 0xFF#8, 0xFF#8, 0xFF#8, 0xFF#8,
          0xFF#8], 0x7FCD#16) := by decide +kernel
theorem test_rdC_parse : -- R134, R182
    after (step (parsing false rdC6 [0xFF#8, 0xFF#8, 0xFF#8, 0xFF#8, 0x12#8, 0x34#8, 0x56#8, 0x78#8, 0x9A#8,
        0xBC#8, 0xBC#8, 0x24#8])) (fun t => (t.res, t.pecr))
      = some ([0x123456789ABC#64], 0x5E12#16) := by decide +kernel
theorem test_wrC_encode : -- V1.23
    after (step (encoding wrC6)) (fun t => t.txb.map Prod.snd)
      = some [0x00#8, 0x01#8, 0x3D#8, 0x6E#8, 0x12#8, 0x34#8, 0x56#8, 0x78#8, 0x9A#8, 0xBC#8, 0xBC#8,
          0x24#8] := by decide +kernel
theorem test_wrC_parse : -- R135, R149: the tail is not examined
    after (step (parsing false wrC6 [0x00#8, 0x01#8, 0x3D#8, 0x6E#8, 0x12#8, 0x34#8, 0x56#8, 0x78#8, 0x9A#8,
        0xBC#8, 0x00#8, 0x00#8])) (fun t => t.res) = some [0x123456789ABC#64] := by decide

/-! ### The PEC engine -/

theorem test_pec_trace : pec 0x0010#15 0x4599#15 [0x81#8, 0x04#8] = 0x7FCD#15 ∧ -- R182
    pecOut (0x7FCD#15 : BitVec 15) = [0xFF#8, 0x9A#8] := by decide +kernel
theorem test_pec_width_16 : -- V2.16
    pec 0xFFFF#16 0x1021#16 [0x31#8, 0x32#8, 0x33#8, 0x34#8, 0x35#8, 0x36#8, 0x37#8, 0x38#8, 0x39#8]
      = 0x29B1#16 := by decide +kernel
theorem test_pec_width_2 : pec 0#2 3#2 [0xA5#8] = 2#2 ∧ pecOut (2#2 : BitVec 2) = [0x80#8, 0x00#8] := by
  decide -- V2.18
theorem test_pecCalc : -- V2.25
    after (exec (.pecCalc [0x00#8, 0x01#8]) bench) (fun t => (t.host.response, t.pecr))
      = some (some ⟨0#4, 0#4, .pecField 0x3D#8 0x6E#8⟩, 0x1EB7#16) := by decide +kernel
theorem test_pecCalc_other_widths : -- V2.16; V2.18 with R181: the reset seed is 0 modulo 4
    after (exec (.pecCalc [0x31#8, 0x32#8, 0x33#8, 0x34#8, 0x35#8, 0x36#8, 0x37#8, 0x38#8, 0x39#8])
        { benchOf ⟨16, by decide⟩ 0x1021#16 with pecSeed := 0xFFFF#16 })
      (fun t => (t.host.response, t.pecr))
      = some (some ⟨0#4, 0#4, .pecField 0x29#8 0xB1#8⟩, 0x29B1#16) ∧
    (benchOf ⟨2, by decide⟩ 2#2).pecSeed = 0#16 ∧
    after (exec (.pecCalc [0xA5#8]) (benchOf ⟨2, by decide⟩ 2#2)) (fun t => (t.host.response, t.pecr))
      = some (some ⟨0#4, 0#4, .pecField 0x80#8 0x00#8⟩, 2#16) := by decide +kernel
theorem test_pecChk_ok : -- V2.26
    answer (exec (.pecChk [0x00#8, 0x01#8] 0x3D#8 0x6E#8) bench) = some (some ⟨0#4, 0#4, .empty⟩) := by
  decide +kernel
theorem test_pecChk_padding_bit : -- V2.27
    after (exec (.pecChk [0x00#8, 0x01#8] 0x3D#8 0x6F#8) bench) (fun t => (t.statusWord, t.pecr))
      = some (0x30#32, 0x1EB7#16) := by decide +kernel

/-! ### Host commands -/

theorem test_reset : -- R240
    after (exec .reset { live with err := 5#4, pecTaps := 1#16 }) (fun t => (t.statusWord, t.pecTaps))
      = some (0#32, 0x4599#16) := by decide
theorem test_csrRd : -- R241
    answer (exec (.csrRd 3#8) bench) = some (some ⟨0#4, 0#4, .word 0x10#32⟩) := by decide
theorem test_csrWr_busfmt : -- R242
    after (exec (.csrWr 5#8 0x4A#32) bench) (fun t => (t.opc, t.hwaddr)) = some (4#4, 5#3) := by decide
theorem test_csrWr_engine : -- R242; V5.22 (W = 15), and the same word at W = 16: bits 31:PEC_W ignored
    after (exec (.csrWr 4#8 0x4598#32) bench) (fun t => t.pecTaps) = some 0x4599#16 ∧
    after (exec (.csrWr 3#8 0xFFFF8000#32) bench) (fun t => t.pecSeed) = some 0#16 ∧
    after (exec (.csrWr 3#8 0xFFFF8000#32) (benchOf ⟨16, by decide⟩ 0#16)) (fun t => t.pecSeed)
      = some 0x8000#16 := by decide
theorem test_init : -- R243
    after (exec (.init 0x800#32 1000000#32 0#32) bench) (fun t => t.statusWord) = some 1#32 := by decide
theorem test_init_mode_with_warning : -- R243, R247
    after (exec (.init 0x801#32 1000000#32 1#32) bench) (fun t => t.statusWord) = some 0x114#32 := by decide
theorem test_errClr : -- R248
    after (exec .errClr { live with err := 1#4, esub := 1#4, warn := true }) (fun t => t.statusWord)
      = some 1#32 := by decide
theorem test_dqPush : -- R200
    after (exec (.dqPush 0x119#32 0#64) bench) (fun t => t.dq) = some [rdA3] := by decide
theorem test_dqPush_illegal : -- R201
    after (exec (.dqPush 0x101#32 0#64) bench) (fun t => (t.dq, t.statusWord)) = some ([], 0x250#32) := by
  decide
theorem test_dqClr : -- R203
    after (exec .dqClr (loaded bench [rdA3] [])) (fun t => t.dqn) = some 0#16 := by decide
theorem test_exec : -- program P1
    after (exec .exec (loaded live [rdA3] [.ok [0x00#8, 0x12#8, 0x34#8, 0x56#8]]))
      (fun t => (t.res, t.statusWord, t.fp, t.txn, t.rxn, t.dq))
      = some ([0x123456#64], 3#32, 1#16, 4#32, 4#32, []) := rfl
theorem test_exec_second_frame_fails : -- R216
    after (exec .exec (loaded { live with echoChk := true } [rdA3, wrA2]
        [.ok [0x00#8, 0x12#8, 0x34#8, 0x56#8, 0x01#8, 0#8, 0#8]]))
      (fun t => (t.res, t.statusWord, t.fp, t.txn, t.rxn, t.dq))
      = some ([], 0x221#32, 1#16, 7#32, 7#32, []) := rfl
theorem test_resRd : -- R217
    answer (exec (.resRd 0#16) { bench with res := [0x123456#64] })
      = some (some ⟨0#4, 0#4, .result 0x123456#64⟩) := by decide
theorem test_resRd_none : -- R217
    answer (exec (.resRd 1#16) { bench with res := [0x123456#64] }) = some (some ⟨6#4, 5#4, .empty⟩) := by
  decide

/-! ### Witnesses: the hypotheses of each statement are met -/

/-- A queue of one frame of each format, reads and writes. -/
def mixed : List Descriptor := [rdA3, wrB1, rdC6, wrC6]

theorem live_inv (s : State) (h : s = live ∨ s = bench) : s.Inv := by
  rcases h with rfl | rfl <;>
    exact ⟨by decide, by decide, by decide, by decide, by decide, by decide, by decide, by decide,
      by decide, by decide, by decide, by decide, by decide⟩

theorem loaded_inv (s : State) (h : s.Inv) (ds : List Descriptor) (k : List TransportAnswer)
    (hq : ds.length ≤ s.params.qdepth) (hl : ds.all descriptorLegal = true) : (loaded s ds k).Inv :=
  ⟨h.1, h.2, h.3, hq, hl, h.6, h.7, h.8, h.9, h.10, h.11, h.12, h.13⟩

theorem mixed_inv (k : List TransportAnswer) : (loaded live mixed k).Inv :=
  loaded_inv live (live_inv live (.inl rfl)) mixed k (by decide) (by decide)

/-- A hardware reset at the head, and one behind a command during a transfer that is not answered. -/
theorem witness_HardwareResetLoadsResetValues :
    (presented live [.hardwareReset, .command ⟨0x12#32, [], []⟩]).host.pending
      = [.hardwareReset, .command ⟨0x12#32, [], []⟩] ∧
    (let s : State :=
      { presented live [.command ⟨0x12#32, [], []⟩, .hardwareReset] with phase := .transfer }
    s.phase = .transfer ∧
    s.host.pending = [(⟨0x12#32, [], []⟩ : Message)].map .command ++ .hardwareReset :: []) := ⟨rfl, rfl, rfl⟩

theorem test_reset_ends_a_hang : -- R325
    after (step { presented live [.command ⟨0x12#32, [], []⟩, .hardwareReset] with phase := .transfer })
      (fun t => (t.ready, t.phase, t.host))
      = some (false, .idle, { pending := [.command ⟨0x12#32, [], []⟩], response := none }) := by decide

theorem test_reset_waits_its_turn : -- R293: between commands the inputs are taken in their order
    step (presented live [.command ⟨0x11#32, [], []⟩, .hardwareReset])
      = exec .dqClr (presented live [.hardwareReset]) := rfl

theorem witness_ResetStateMeetsInvariant : 1 ≤ tb.qdepth ∧ tb.qdepth ≤ 65535 ∧
    1 ≤ ({ tb with qdepth := 65535 } : Params).qdepth := by decide

theorem witness_DecodeOfEncodeIsIdentity : Instr.WellFormed (.rdA 0x3F#16 8#4 (-1#64)) = true ∧
    Instr.WellFormed (.wrB 0xFF#16 1#4 0xFF#64) = true ∧
    Instr.WellFormed (.wrC 0xFFFF#16 8#4 (-1#64)) = true ∧
    Instr.WellFormed (.pecChk [] 1#8 2#8) = true := by decide

theorem witness_EncodeOfDecodeIsIdentity :
    decode (.desc wrC6) = .ok (.wrC 0x0001#16 6#4 0x123456789ABC#64) ∧
    decode (.host ⟨0xFFFF0013#32, [], []⟩) = .ok (.resRd 0xFFFF#16) := by decide

theorem witness_IllegalMessagesRaiseIllegalCmd : (∀ w : Word,
      (presented live [.command ⟨w, [], []⟩]).phase = .idle ∧
      (presented live [.command ⟨w, [], []⟩]).host.pending = [.command ⟨w, [], []⟩]) ∧
    (0x00000022#32 : Word).toNat % 256
      ∉ [0x01, 0x02, 0x03, 0x04, 0x05, 0x10, 0x11, 0x12, 0x13, 0x20, 0x21] ∧
    ((0x00000101#32 : Word).toNat % 256 ∉ [0x02, 0x03] ∧ (0x00000101#32 : Word).toNat / 256 % 256 ≠ 0) ∧
    ((0x00010012#32 : Word).toNat % 256 ∉ [0x13, 0x20, 0x21] ∧ (0x00010012#32 : Word).toNat / 65536 ≠ 0) ∧
    ((0x00000004#32 : Word).toNat = 0x04 ∧ (0x808#32 : Word).toNat / 8 % 32 ≠ 0 ∧
      (0x10000#32 : Word).toNat / 65536 ≠ 0) := ⟨fun _ => ⟨rfl, rfl⟩, by decide⟩

theorem witness_StepRunsTheDecodedInstruction :
    ((presented live [.command ⟨0x12#32, [], []⟩]).phase = .idle ∧
      decode (.host ⟨0x12#32, [], []⟩) = .ok .exec) ∧
    ((encoding rdA3).phase = .encode ∧ (encoding rdA3).dq[(encoding rdA3).fp.toNat]? = some rdA3 ∧
      decode (.desc rdA3) = .ok (.rdA 1#16 3#4 0#64) ∧ (encoding rdA3).host.pending = []) ∧
    ((parsing false rdA3 []).phase = .parse ∧
      (parsing false rdA3 []).dq[(parsing false rdA3 []).fp.toNat]? = some rdA3) ∧
    (live.phase = .idle ∧ live.host.pending = []) := by decide

theorem witness_UnansweredTransferHoldsForEver :
    let s : State := { presented live [.command ⟨0x01#32, [], []⟩] with phase := .transfer }
    s.phase = .transfer ∧ .hardwareReset ∉ s.host.pending := by decide

theorem witness_StepKeepsInvariant : (presented (loaded live mixed [.ioerror])
      [.command ⟨0x12#32, [], []⟩]).Inv ∧
    ∃ t, step (presented (loaded live mixed [.ioerror]) [.command ⟨0x12#32, [], []⟩]) = .next t :=
  ⟨⟨by decide, by decide, by decide, by decide, by decide, by decide, by decide, by decide, by decide,
    by decide, by decide, by decide, by decide⟩, _, rfl⟩

/-- Both outcomes of StepFromInvariantGoesOn arise. -/
theorem witness_StepFromInvariantGoesOn :
    (presented live [.command ⟨0x03#32, [], []⟩]).Inv ∧
    decode (.host ⟨0x03#32, [], []⟩) = .error .operandCount ∧
    step (presented live [.command ⟨0x03#32, [], []⟩]) = .refused .operandCount :=
  ⟨⟨by decide, by decide, by decide, by decide, by decide, by decide, by decide, by decide, by decide,
    by decide, by decide, by decide, by decide⟩, by decide, rfl⟩

theorem witness_ShiftFollowsTheTaps : 1 ≤ 15 ∧ (0x4599#15).getLsbD 0 = true ∧ 1 ≤ 14 ∧ 14 ≤ 15 - 1 := by
  decide

theorem witness_PecFieldIsTheVectorLeftAligned : (2 ≤ 2 ∧ 2 ≤ 16) ∧ (2 ≤ 16 ∧ 16 ≤ 16) := by decide

theorem witness_PecChkComparesBothBytes :
    [0x3D#8, 0x6E#8] = bench.pecBytes [0x00#8, 0x01#8] ∧
    [0x3D#8, 0x6F#8] ≠ bench.pecBytes [0x00#8, 0x01#8] := by decide +kernel

theorem witness_OldPecrInfluencesNothing : Instr.pecCalc [] ≠ .csrRd 10#8 ∧
    ∃ t, exec (.pecCalc []) bench = .next t := ⟨by decide, _, rfl⟩

theorem witness_BigEndianBytesRoundTrip :
    1 ≤ 8 ∧ 8 ≤ 8 ∧ (-1#64 : DWord).toNat < 2 ^ (8 * 8) ∧ (0#64 : DWord).toNat < 2 ^ (8 * 1) ∧
    (List.replicate 8 0xFF#8).length = 8 := by decide

theorem witness_BigEndianAssembly :
    (List.replicate 8 0xFF#8).length ≤ 8 ∧ (List.replicate 7 0xFF#8).length ≤ 7 := by decide

/-- The longest frames, ending at the last byte of TXB. -/
theorem witness_FormatsEncode :
    let a : State := { encoding rdC6 with ofs := 215#32 }
    let b : State := { encoding rdC6 with ofs := 214#32 }
    let c : State := { encoding rdC6 with ofs := 210#32 }
    (a.phase = .encode ∧ a.ofs.toNat + (1 + (8#4 : BitVec 4).toNat) ≤ bufmax a.params) ∧
    (b.phase = .encode ∧ b.ofs.toNat + (2 + (8#4 : BitVec 4).toNat) ≤ bufmax b.params) ∧
    (c.phase = .encode ∧ c.ofs.toNat + (6 + (8#4 : BitVec 4).toNat) ≤ bufmax c.params) := by
  decide

/-- A slice is where a frame's parse finds it. -/
theorem sliceAt_parsing (chk : Bool) (d : Descriptor) (rx : List Byte) : SliceAt (parsing chk d rx) rx := by
  intro k hk
  show Memory.byte (Memory.cells 0 rx) (0 + k) = rx[k]?
  have h : ∀ (l : List Byte) (a j : Nat), Memory.byte (Memory.cells a l) (a + j) = l[j]? := by
    intro l
    induction l with
    | nil => intro a j; simp [Memory.cells, Memory.byte]
    | cons b bs ih =>
      intro a j
      cases j with
      | zero => simp [Memory.cells, Memory.byte]
      | succ j =>
        have := ih (a + 1) j
        simp only [Memory.byte, Memory.cells, List.lookup_cons] at this ⊢
        rw [show (a + (j + 1) == a) = false by simp]
        rw [show a + (j + 1) = a + 1 + j by omega]
        simpa using this
  exact h rx 0 k

theorem witness_FormatAParses : ∀ chk,
    let sl := [0x01#8, 0x12#8, 0x34#8, 0x56#8]
    let s := parsing chk rdA3 sl
    s.phase = .parse ∧ sl.length = 1 + (3#4 : BitVec 4).toNat ∧ SliceAt s sl ∧
    s.fp.toNat < s.params.qdepth ∧ s.fp.toNat ≤ s.res.length ∧ s.echoChk = chk ∧ sl[0]? ≠ some 0x00#8 :=
  fun _ => ⟨rfl, rfl, sliceAt_parsing _ _ _, show 0 < 16 by omega, Nat.zero_le _, rfl, by decide⟩

theorem witness_FormatBParses : ∀ chk,
    let sl := [0x00#8, 0x01#8, 0xA5#8]
    let s := parsing chk rdB1 sl
    s.phase = .parse ∧ sl.length = 2 + (1#4 : BitVec 4).toNat ∧ SliceAt s sl ∧
    s.fp.toNat < s.params.qdepth ∧ s.fp.toNat ≤ s.res.length ∧ s.echoChk = chk ∧
    sl.take 2 ≠ [0x00#8, 0x00#8] :=
  fun _ => ⟨rfl, rfl, sliceAt_parsing _ _ _, show 0 < 16 by omega, Nat.zero_le _, rfl, by decide⟩

/-- One data byte A5 with its PEC E8 D6 (V2.21b), with another field, and with a bad echo. -/
theorem witness_FormatCParses : ∀ (chk : Bool) (q1 : Byte) (hd : List Byte), hd.length = 4 →
    let s := parsing chk rdC6 (hd ++ [0xA5#8] ++ [0xE8#8, q1])
    s.phase = .parse ∧ [0xA5#8].length = (1#4 : BitVec 4).toNat ∧
    SliceAt s (hd ++ [0xA5#8] ++ [0xE8#8, q1]) ∧ s.fp.toNat < s.params.qdepth ∧
    s.fp.toNat ≤ s.res.length ∧ s.echoChk = chk :=
  fun _ _ _ _ => ⟨rfl, rfl, sliceAt_parsing _ _ _, show 0 < 16 by omega, Nat.zero_le _, rfl⟩

theorem witness_FormatCParses_clauses :
    [0#8, 0#8, 0#8, 0#8] = List.replicate 4 0x00#8 ∧ [0#8, 0#8, 0#8, 1#8] ≠ List.replicate 4 0x00#8 ∧
    [0xE8#8, 0xD6#8] = live.pecBytes [0xA5#8] ∧ [0xE8#8, 0xD7#8] ≠ live.pecBytes [0xA5#8] := by
  decide +kernel

theorem witness_ShortSliceRaisesLen : (parsing false rdA3 [0x00#8, 0x12#8, 0x34#8]).phase = .parse ∧
    3 < frameCount ⟨.a, true, 1#16, 3#4, 0#64⟩ ∧
    (parsing false rdA3 [0x00#8, 0x12#8, 0x34#8]).rxb.byte 3 = none := by decide

theorem witness_FrameOutsideExecIsRefused : live.phase = .idle ∧
    ({ live with phase := .transfer } : State).phase = .transfer := by decide

theorem witness_IdleBusFailsThePecCheck :
    let sl := List.replicate (6 + (8#4 : BitVec 4).toNat) 0xFF#8
    (parsing false rdC6 sl).params.pecW.val < 16 ∧
    (parsing false rdC6 sl).phase = .parse ∧ (parsing false rdC6 sl).echoChk = false ∧
    SliceAt (parsing false rdC6 sl) sl := ⟨by decide, rfl, rfl, sliceAt_parsing _ _ _⟩

theorem witness_LoopbackRoundTripOfAFrame : ∀ f : Frame,
    f = ⟨.c, false, 1#16, 6#4, 0x123456789ABC#64⟩ ∨ f = ⟨.a, true, 1#16, 3#4, 0#64⟩ →
    let s := parsing false f.descriptor (frameTx live f)
    s.phase = .parse ∧ s.echoChk = false ∧ f.legal = true ∧ SliceAt s (frameTx s f) ∧
    s.fp.toNat < s.params.qdepth ∧ s.fp.toNat ≤ s.res.length := by
  rintro f (rfl | rfl) <;> exact ⟨rfl, rfl, by decide, sliceAt_parsing _ _ _, by decide, Nat.zero_le _⟩

/-- Room for the last entry, and none after it. -/
theorem witness_DqPush : descriptorLegal rdA3 = true ∧
    (loaded bench (List.replicate 15 rdA3) []).dq.length < tb.qdepth ∧
    (loaded bench (List.replicate 16 rdA3) []).dq.length = tb.qdepth ∧
    descriptorLegal ⟨0x00004009#32, 0#64⟩ = false := by decide

theorem witness_ResRdAnswersOrRefuses :
    ({ bench with res := [7#64] } : State).res[(0#16 : BitVec 16).toNat]? = some 7#64 ∧
    ({ bench with res := [7#64] } : State).res.length ≤ (1#16 : BitVec 16).toNat := by decide

theorem witness_ExecNeedsReady : bench.ready = false := rfl

/-- The answers of XPORT that the statements of EXEC distinguish, for a queue of four frames. -/
theorem witness_ExecAnswers : ∀ a : TransportAnswer,
    let s := loaded live mixed [a]
    s.Inv ∧ s.ready = true ∧ s.bus.answer (queueTx s) = a := fun a => ⟨mixed_inv [a], rfl, rfl⟩

theorem witness_ExecAbortsOnLengthMismatch :
    let s := loaded live mixed [.ok []]
    ([] : List Byte).length ≠ (queueTx s).length ∧
    (List.replicate 225 0#8).length ≠ (queueTx s).length ∧ (List.replicate 225 0#8).length < 2 ^ 32 := by
  decide +kernel

/-- An answer whose length 32 bits cannot hold. -/
theorem witness_ExecAbortsOnLengthMismatch_long :
    let s := loaded live mixed [.ok (List.replicate (2 ^ 32) 0#8)]
    s.bus.answer (queueTx s) = .ok (List.replicate (2 ^ 32) 0#8) ∧
    (List.replicate (2 ^ 32) (0#8 : Byte)).length ≠ (queueTx s).length ∧
    ¬ (List.replicate (2 ^ 32) (0#8 : Byte)).length < 2 ^ 32 := by
  refine ⟨rfl, ?_, ?_⟩
  · rw [List.length_replicate]
    decide +kernel
  · rw [List.length_replicate]
    omega

/-- The answer of program P2's kind: every slice parses. -/
def goodAnswer : List Byte :=
  [0#8, 0x12#8, 0x34#8, 0x56#8] ++ [0#8, 0#8, 0x3C#8] ++
  [0#8, 0#8, 0#8, 0#8, 0x12#8, 0x34#8, 0x56#8, 0x78#8, 0x9A#8, 0xBC#8, 0xBC#8, 0x24#8] ++
  [0#8, 0#8, 0#8, 0#8, 1#8, 2#8, 3#8, 4#8, 5#8, 6#8, 0#8, 0#8]

/-- As `goodAnswer`, but the PEC field of frame 2 has one bit wrong. -/
def badAnswer : List Byte :=
  [0#8, 0x12#8, 0x34#8, 0x56#8] ++ [0#8, 0#8, 0x3C#8] ++
  [0#8, 0#8, 0#8, 0#8, 0x12#8, 0x34#8, 0x56#8, 0x78#8, 0x9A#8, 0xBC#8, 0xBC#8, 0x25#8] ++
  [0#8, 0#8, 0#8, 0#8, 1#8, 2#8, 3#8, 4#8, 5#8, 6#8, 0#8, 0#8]

theorem witness_ExecDeliversAllResultsInOrder :
    let s := loaded live mixed [.ok goodAnswer]
    s.bus.answer (queueTx s) = .ok goodAnswer ∧ goodAnswer.length = (queueTx s).length ∧
    parseQueue s (queueFrames s) goodAnswer
      = .ok [0x123456#64, 0x3C#64, 0x123456789ABC#64, 0x010203040506#64] := by
  refine ⟨rfl, ?_, ?_⟩ <;> decide +kernel

theorem witness_ExecAbortsAtTheFirstBadFrame :
    let s := loaded live mixed [.ok badAnswer]
    s.bus.answer (queueTx s) = .ok badAnswer ∧ badAnswer.length = (queueTx s).length ∧
    parseQueue s (queueFrames s) badAnswer = .error (2, .pecMismatch) := by
  refine ⟨rfl, ?_, ?_⟩ <;> decide +kernel

theorem witness_ExecOfAnEmptyQueue :
    (∀ k, (loaded live [] k).Inv ∧ (loaded live [] k).ready = true ∧ (loaded live [] k).dq = []) ∧
    (loaded live [] [.ok []]).bus.answer [] = .ok [] ∧
    (loaded live [] [.ok [0#8]]).bus.answer [] = .ok [0#8] :=
  ⟨fun k => ⟨loaded_inv live (live_inv live (.inl rfl)) [] k (by decide) rfl, rfl, rfl⟩, rfl, rfl⟩

theorem witness_LoopbackExecReturnsTheWrittenValues :
    let s := loaded live [wrA2, wrC6]
      [.ok [0x08#8, 0xBE#8, 0xEF#8, 0x00#8, 0x01#8, 0x3D#8, 0x6E#8, 0x12#8, 0x34#8, 0x56#8, 0x78#8, 0x9A#8,
        0xBC#8, 0xBC#8, 0x24#8]]
    s.Inv ∧ s.ready = true ∧ s.echoChk = false ∧ (∀ f ∈ queueFrames s, f.rd = false) ∧
    s.bus.answer (queueTx s) = .ok (queueTx s) := by
  refine ⟨loaded_inv live (live_inv live (.inl rfl)) _ _ (by decide) (by decide), rfl, rfl, ?_, ?_⟩
  · decide +kernel
  · decide +kernel

theorem witness_PseudoOperationsMakeOneTransfer : live.Inv ∧ live.ready = true ∧
    Frame.legal ⟨.b, true, 0xFF#16, 8#4, 0#64⟩ = true ∧
    Frame.legal ⟨.a, false, 0x3F#16, 1#4, 0xFF#64⟩ = true :=
  ⟨live_inv live (.inl rfl), rfl, by decide, by decide⟩

theorem witness_UnimplementedCsrNumbersAreIllegal :
    11 ≤ (11#8 : BitVec 8).toNat ∧ 11 ≤ (255#8 : BitVec 8).toNat := by decide

theorem witness_CsrWr : bench.ready = false ∧ live.ready = true ∧
    (10#8 : BitVec 8).toNat ∈ [0, 1, 6, 7, 8, 9, 10] ∧ (5#8 : BitVec 8).toNat ∈ [2, 3, 4, 5] := by decide

/-- TB's fastest bus in mode 0, eight bits, most significant bit first. -/
theorem witness_InitSucceedsOnASupportedBus : bench.ready = false ∧
    (0x800#32 : Word).toNat / 65536 = 0 ∧ (0x800#32 : Word).toNat / 8 % 32 = 0 ∧
    tb.supportedModes.getLsbD ((0x800#32 : Word).toNat % 4) = true ∧
    tb.speedMin ≤ (10000000#32 : Word).toNat ∧ (10000000#32 : Word).toNat ≤ tb.speedMax ∧
    (0x800#32 : Word).getLsbD 2 = false ∧ (0x800#32 : Word).toNat / 256 % 256 = 8 := by decide

/-- One BUSCFG and MAX_SPEED for each check that can be the first to fail. -/
theorem witness_InitReportsTheFirstFailingCheck : bench.ready = false ∧
    (∀ b ∈ [0x807#32, 0x800#32, 0x804#32, 0x900#32],
      (b : Word).toNat / 65536 = 0 ∧ b.toNat / 8 % 32 = 0) ∧
    ¬ tb.supportedModes.getLsbD ((0x807#32 : Word).toNat % 4) = true ∧
    (∀ b ∈ [0x800#32, 0x804#32, 0x900#32], tb.supportedModes.getLsbD ((b : Word).toNat % 4) = true) := by
  refine ⟨rfl, ?_, by decide, ?_⟩ <;> simp [tb]

theorem witness_InitReportsTheFirstFailingCheck_clauses :
    ¬ (10000001#32 : Word).toNat ≤ tb.speedMax ∧
    (tb.speedMin ≤ (0#32 : Word).toNat ∧ (0#32 : Word).toNat ≤ tb.speedMax) ∧
    (0x804#32 : Word).getLsbD 2 = true ∧ (0x900#32 : Word).getLsbD 2 = false ∧
    (0x900#32 : Word).toNat / 256 % 256 ≠ 8 := by
  refine ⟨?_, ?_, ?_, ?_, ?_⟩
  · show ¬ 10000001 ≤ 10000000
    omega
  · decide
  · decide
  · decide
  · decide

theorem witness_InitWhileReadyIsRefused : live.ready = true ∧
    (0x800#32 : Word).toNat / 65536 = 0 ∧ (0x800#32 : Word).toNat / 8 % 32 = 0 := by decide

theorem witness_ConfigurationIsLockedWhileReady : live.ready = true ∧ Instr.csrWr 2#8 1#32 ≠ .reset ∧
    ∃ t, exec (.csrWr 2#8 1#32) live = .next t := ⟨rfl, by decide, _, rfl⟩

theorem witness_FlagsChangeOnlyAsListed : isCommand (.init 0x800#32 1#32 1#32) = true ∧
    after (exec (.init 0x800#32 1#32 1#32) bench) (fun t => (t.ready, t.warn)) = some (true, true) ∧
    after (exec .exec (loaded live [] [.ok []])) (fun t => t.done) = some true := by decide +kernel

theorem witness_ResponseAgreesWithTheErrorRecord :
    isCommand .exec = true ∧ answer (exec .exec bench) = some (some ⟨6#4, 1#4, .empty⟩) ∧
    answer (exec .dqClr bench) = some (some ⟨0#4, 0#4, .empty⟩) := by decide

theorem witness_ErrorsArePrecise : isCommand .exec = true ∧
    answer (exec .exec bench) = some (some ⟨6#4, 1#4, .empty⟩) ∧
    answer (exec (.csrRd 11#8) bench) = some (some ⟨5#4, 3#4, .empty⟩) ∧
    answer (exec (.init 0x801#32 0#32 1#32) bench) = some (some ⟨1#4, 1#4, .empty⟩) ∧
    answer (exec (.pecChk [] 0#8 0#8) bench) = some (some ⟨3#4, 0#4, .empty⟩) := by decide +kernel

theorem witness_OnlyExecTransfers : Instr.dqClr ≠ .exec ∧ ∃ t, exec .dqClr live = .next t :=
  ⟨by decide, _, rfl⟩

theorem witness_ErrorRecordInfluencesNothing : Instr.errClr ≠ .csrRd 0#8 ∧
    ∃ t, exec .errClr live = .next t := ⟨by decide, _, rfl⟩

end Sys2Proof.Tests
end

section
/-! PROOF. The statement of 00_scope.md: from the invariant a step goes on. The rules it is made of come
first: the decoder, a legal queue, the two walks of EXEC, the commands, the step. -/

namespace Sys2Proof.Proofs

open Sys2Proof.Machine Sys2Proof.Laws

/-! ### The decoder -/

theorem wordOperands_cases (n : Nat) (words : List Word) (bytes : List Byte) (i : Instr) :
    wordOperands n words bytes i = .error .operandCount ∨ wordOperands n words bytes i = .ok i := by
  unfold wordOperands
  split
  · exact .inr rfl
  · exact .inl rfl

theorem byteOperands_cases (n : Nat) (words : List Word) (bytes : List Byte) (i : Instr) :
    byteOperands n words bytes i = .error .operandCount ∨ byteOperands n words bytes i = .ok i := by
  unfold byteOperands
  split
  · exact .inr rfl
  · exact .inl rfl

/-- The operands of a command are those of 30_encoding.md R108, and then it is a host command, or they are
miscounted. -/
theorem takeOperands_cases (o : HostOp) (arg8 : BitVec 8) (arg16 : BitVec 16) (words : List Word)
    (bytes : List Byte) :
    takeOperands o arg8 arg16 words bytes = .error .operandCount ∨
      ∃ i, isCommand i = true ∧ takeOperands o arg8 arg16 words bytes = .ok i := by
  cases o
  case pecCalc | pecChk => exact (byteOperands_cases _ _ _ _).imp_right fun h => ⟨_, rfl, h⟩
  all_goals exact (wordOperands_cases _ _ _ _).imp_right fun h => ⟨_, rfl, h⟩

/-- What a message decodes to: a host command, or one of three errors (30_encoding.md R108, R110), none of
them an error of a descriptor. -/
theorem decodeMessage_cases (m : Message) :
    decodeMessage m = .error .unknownOp ∨ decodeMessage m = .error .unusedField ∨
      decodeMessage m = .error .operandCount ∨ ∃ i, isCommand i = true ∧ decodeMessage m = .ok i := by
  unfold decodeMessage
  split
  · exact .inl rfl
  · split
    · exact .inr (.inl rfl)
    · exact .inr (.inr (takeOperands_cases _ _ _ _ _))

@[simp] theorem decode_host (m : Message) : decode (.host m) = decodeMessage m := rfl

/-- DLEN of a legal descriptor is at most 8 (30_encoding.md R104). -/
theorem decodeFrame_dlen_le {d : Descriptor} {f : Frame} (h : decodeFrame d = .ok f) :
    f.dlen.toNat ≤ 8 := by
  simp only [decodeFrame] at h
  split at h
  · cases h
  · split at h
    · cases h
    · split at h
      · cases h
      · have hn : ¬ 8#4 < d.dw0.extractLsb' 3 4 := by simp_all [dlenIllegal]
        split at h
        · cases h
        · split at h
          · cases h
          · cases h
            exact Nat.le_of_not_lt hn

/-- A legal frame has at most 14 bytes (30_encoding.md R113). -/
theorem frameCount_le_maxFrame {d : Descriptor} {f : Frame} (h : decodeFrame d = .ok f) :
    frameCount f ≤ Config.maxFrame := by
  have hn := decodeFrame_dlen_le h
  unfold frameCount Config.maxFrame
  cases f.fmt <;> simp only [hlen, tlen] <;> omega

/-! ### A legal queue -/

/-- Every entry of a legal queue decodes, to the frames of the queue in order (10_state.md R28). -/
theorem map_decodeFrame_queue {s : State} (h : s.dq.all descriptorLegal = true) :
    s.dq.map decodeFrame = (queueFrames s).map .ok := by
  unfold queueFrames
  generalize s.dq = ds at h ⊢
  induction ds with
  | nil => rfl
  | cons d ds ih =>
    obtain ⟨hd, hds⟩ := Bool.and_eq_true_iff.mp h
    cases hf : decodeFrame d with
    | error e => simp [descriptorLegal, hf] at hd
    | ok f => simp [hf, ih hds]

/-- The bytes of a list of legal frames (10_state.md R25). -/
theorem sum_frameCount_le {ds : List Descriptor} {fs : List Frame}
    (h : ds.map decodeFrame = fs.map Except.ok) :
    (fs.map frameCount).sum ≤ Config.maxFrame * fs.length := by
  have hle : ∀ n ∈ fs.map frameCount, n ≤ Config.maxFrame := by
    intro n hn
    obtain ⟨f, hf, rfl⟩ := List.mem_map.mp hn
    obtain ⟨d, -, hd⟩ := List.mem_map.mp (h ▸ List.mem_map_of_mem hf)
    exact frameCount_le_maxFrame hd
  have := List.sum_le_card_nsmul _ _ hle
  rwa [List.length_map, smul_eq_mul, Nat.mul_comm] at this

/-- The block's buffers have fewer than 2^32 bytes (00_scope.md R7 P4, P5). -/
theorem bufmax_lt_of_inv {s : State} (h : s.Inv) : bufmax s.params < 2 ^ 32 := by
  have := h.qdepthRange
  unfold bufmax Config.maxFrame
  omega

theorem queueFrames_length_of_inv {s : State} (h : s.Inv) :
    (queueFrames s).length ≤ s.params.qdepth := by
  have hl := congrArg List.length (map_decodeFrame_queue h.queueLegal)
  rw [List.length_map, List.length_map] at hl
  exact hl ▸ h.queueFits

/-- The bytes of the queue fit TXB (10_state.md R25, R29). -/
theorem queue_bytes_fit_of_inv {s : State} (h : s.Inv) :
    ((queueFrames s).map frameCount).sum ≤ bufmax s.params :=
  (sum_frameCount_le (map_decodeFrame_queue h.queueLegal)).trans
    (Nat.mul_le_mul_left _ (queueFrames_length_of_inv h))

/-! ### The two walks of EXEC -/

/-- The encode walk of EXEC goes over the whole queue (42_batcher.md R206). -/
theorem encodeWalk_of_inv {s : State} (h : s.Inv) :
    walk s.dq (beginEncode s) = .next { beginEncode s with
      txb := Memory.cells 0 (queueTx s)
      ofs := BitVec.ofNat 32 ((queueFrames s).map frameCount).sum
      fp := BitVec.ofNat 16 (queueFrames s).length
      pecr := (queueFrames s).foldl (framePecr s) s.pecr } := by
  have hw := walk_encode (map_decodeFrame_queue h.queueLegal) (beginEncode s) [] rfl rfl rfl
    (by simpa using queue_bytes_fit_of_inv h) (bufmax_lt_of_inv (s := s) h)
  simp only [List.length_nil, Nat.zero_add, List.nil_append, beginEncode_fp, BitVec.zero_add] at hw
  exact hw

/-- The parse walk over frames whose slices lie in RXB ends, complete or by an abort, in a next state
(42_batcher.md R210, R211). -/
theorem parseWalk_goes_on {ds : List Descriptor} {fs : List Frame}
    (hd : ds.map decodeFrame = fs.map Except.ok) {s : State} {rx : List Byte} (hp : s.phase = .parse)
    (hr : s.rxb = Memory.cells 0 rx) (ho : s.ofs = 0#32) (hf : s.fp = 0#16)
    (hl : rx.length = (fs.map frameCount).sum) (hw : rx.length < 2 ^ 32)
    (hq : fs.length ≤ s.params.qdepth) (hm : s.params.qdepth ≤ 65535) :
    ∃ t, walk ds s = .next t := by
  have h := walk_parse hd s rx hp hr (by simp [ho, hl]) hw (by simpa [hf] using hq) hm (by simp [hf])
  split at h
  · obtain ⟨-, _, -, h⟩ := h
    exact ⟨_, h⟩
  · exact ⟨_, h.2⟩

/-- From the end of an encode walk, where OFS is the number of bytes of the frames and within BUFMAX, EXEC
ends in a next state, whatever XPORT answers (42_batcher.md R204, R208 to R212). -/
theorem finishExec_transfer_goes_on {ds : List Descriptor} {fs : List Frame}
    (hd : ds.map decodeFrame = fs.map Except.ok) {s : State} (ho : s.ofs.toNat = (fs.map frameCount).sum)
    (hb : s.ofs.toNat ≤ bufmax s.params) (hq : fs.length ≤ s.params.qdepth) (hm : s.params.qdepth ≤ 65535) :
    ∃ t, finishExec ds (transfer s) = .next t := by
  unfold finishExec
  obtain ⟨-, h⟩ | ⟨-, h⟩ | ⟨rx, -, ⟨hl, h⟩ | ⟨-, h⟩⟩ := transfer_cases s
  · rw [h, if_neg (by simp)]
    exact ⟨_, rfl⟩
  · rw [h, if_neg (by simp)]
    exact ⟨_, rfl⟩
  · have hr : (beginParse (storeAnswer rx (handOver s))).rxb = Memory.cells 0 rx := by
      simp [List.take_of_length_le (hl ▸ hb)]
    obtain ⟨t, ht⟩ := parseWalk_goes_on hd (s := beginParse (storeAnswer rx (handOver s))) rfl hr rfl rfl
      (hl.trans ho) (hl ▸ s.ofs.isLt) hq hm
    rw [h, if_pos (by simp), ht]
    exact ⟨_, rfl⟩
  · rw [h, if_neg (by simp)]
    exact ⟨_, rfl⟩

/-! ### The commands -/

/-- EXEC from the invariant ends in a next state. -/
theorem execExec_goes_on {s : State} (h : s.Inv) : ∃ t, execExec s = .next t := by
  unfold execExec
  split
  · have hb := queue_bytes_fit_of_inv h
    have ho : (BitVec.ofNat 32 ((queueFrames s).map frameCount).sum).toNat =
        ((queueFrames s).map frameCount).sum := by
      rw [BitVec.toNat_ofNat]
      exact Nat.mod_eq_of_lt (hb.trans_lt (bufmax_lt_of_inv h))
    rw [encodeWalk_of_inv h, onNext_next]
    exact finishExec_transfer_goes_on (map_decodeFrame_queue h.queueLegal) ho (ho.trans_le hb)
      (queueFrames_length_of_inv h) h.qdepthRange.2
  · exact ⟨_, rfl⟩

/-- A host command from the invariant ends in a next state: an error of the spec is one too (R286), and
only EXEC could fault. -/
theorem exec_command_goes_on {i : Instr} (hi : isCommand i = true) {s : State} (h : s.Inv) :
    ∃ t, exec i s = .next t := by
  cases i
  case exec => exact execExec_goes_on h
  case rdA | wrA | rdB | wrB | rdC | wrC => cases hi
  all_goals exact ⟨_, rfl⟩

/-- The invariant does not speak of the inputs still to come. -/
theorem Inv_takeInput {s : State} (h : s.Inv) : (takeInput s).Inv :=
  { qdepthRange := h.qdepthRange, pecRegisters := h.pecRegisters, tapsBitZero := h.tapsBitZero
    queueFits := h.queueFits, queueLegal := h.queueLegal, resultsFit := h.resultsFit
    txForm := h.txForm, txFits := h.txFits, rxForm := h.rxForm, errorRecord := h.errorRecord
    atRest := h.atRest, noPartialResults := h.noPartialResults, doneCount := h.doneCount }

/-! ### The step -/

/-- A hardware reset that lands is the step (70_reset_and_hazards.md R310). -/
theorem step_of_resetLands {s : State} {rest : List HostInput} (h : s.resetLands = some rest) :
    step s = .next (hardwareReset rest s) := by
  rw [step, h]

/-- A transfer that is not answered holds the machine (20_memory.md R67). -/
theorem step_of_transfer {s : State} (hr : s.resetLands = none) (hp : s.phase = .transfer) :
    step s = .next s := by
  simp only [step, hr, stepPhase, hp]

/-- With nothing presented between commands the machine waits (10_state.md R46, 60_exceptions.md R293). -/
theorem step_of_no_input {s : State} (hp : s.phase = .idle) (hq : s.host.pending = []) :
    step s = .next s := by
  simp only [step, State.resetLands, stepPhase, State.fetch, hp, hq]

/-- Between commands a step takes the oldest message and runs its words. -/
theorem step_of_command {s : State} {m : Message} {rest : List HostInput} (hp : s.phase = .idle)
    (hq : s.host.pending = .command m :: rest) : step s = runCode (.host m) (takeInput s) := by
  simp only [step, State.resetLands, stepPhase, State.fetch, hp, hq]

/-- A message of the wrong operands is refused (log entry 6); any other goes on, from the invariant. -/
theorem runCode_host_goes_on (m : Message) {s : State} (h : s.Inv) :
    (∃ t, runCode (.host m) s = .next t) ∨
      (decode (.host m) = .error .operandCount ∧ runCode (.host m) s = .refused .operandCount) := by
  rw [runCode, decode_host]
  obtain hd | hd | hd | ⟨i, hi, hd⟩ := decodeMessage_cases m
  · rw [hd]
    exact .inl ⟨_, rfl⟩
  · rw [hd]
    exact .inl ⟨_, rfl⟩
  · rw [hd]
    exact .inr ⟨rfl, rfl⟩
  · rw [hd]
    exact .inl (exec_command_goes_on hi h)

/-- Settles O13, by where the invariant lets a step begin (`State.Inv.atRest`) and what comes next there;
a message is run by `runCode_host_goes_on`. -/
theorem stepFromInvariantGoesOn : Obligations.StepFromInvariantGoesOn := by
  intro s h
  cases hr : s.resetLands with
  | some rest => exact .inl ⟨_, step_of_resetLands hr⟩
  | none =>
    rcases h.atRest with hp | hp
    · match hq : s.host.pending with
      | [] => exact .inl ⟨_, step_of_no_input hp hq⟩
      | .hardwareReset :: rest => simp [State.resetLands, hp, hq] at hr
      | .command m :: rest =>
        rw [step_of_command hp hq]
        exact (runCode_host_goes_on m (Inv_takeInput h)).imp_right
          fun ⟨hd, hs⟩ => ⟨m, rest, hp, rfl, hd, hs⟩
    · exact .inl ⟨_, step_of_transfer hr hp⟩

end Sys2Proof.Proofs
end

section
/-! PROOF. A whole EXEC from the invariant in the terms of the claims: the state it ends in, by what XPORT
answers (42_batcher.md R204 to R216). -/

namespace Sys2Proof.Proofs

open Sys2Proof.Machine Sys2Proof.Laws

/-! ### The end of the encode walk -/

/-- EXEC where the encode walk has ended (42_batcher.md R206). -/
def queueEncoded (s : State) : State :=
  { beginEncode s with
    txb := Memory.cells 0 (queueTx s)
    ofs := BitVec.ofNat 32 (queueTx s).length
    fp := BitVec.ofNat 16 (queueFrames s).length
    pecr := (queueFrames s).foldl (framePecr s) s.pecr }

theorem queueTx_length (s : State) : (queueTx s).length = ((queueFrames s).map frameCount).sum :=
  flatMap_frameTx_length s (queueFrames s)

theorem queueFrames_length_eq_of_inv {s : State} (h : s.Inv) : (queueFrames s).length = s.dq.length := by
  simpa using (congrArg List.length (map_decodeFrame_queue h.queueLegal)).symm

theorem queueTx_length_le_of_inv {s : State} (h : s.Inv) : (queueTx s).length ≤ bufmax s.params :=
  (queueTx_length s).trans_le (queue_bytes_fit_of_inv h)

/-- OFS and TXN, which have 32 bits, hold the number of bytes of the queue. -/
theorem ofNat_queueTx_length_of_inv {s : State} (h : s.Inv) :
    (BitVec.ofNat 32 (queueTx s).length).toNat = (queueTx s).length := by
  rw [BitVec.toNat_ofNat]
  exact Nat.mod_eq_of_lt ((queueTx_length_le_of_inv h).trans_lt (bufmax_lt_of_inv h))

/-- What XPORT is handed is the bytes of the queue (R208). -/
theorem sentBytes_queueEncoded {s : State} (h : s.Inv) : sentBytes (queueEncoded s) = queueTx s := by
  show memRead (Memory.cells 0 (queueTx s)) 0 (BitVec.ofNat 32 (queueTx s).length).toNat = queueTx s
  rw [ofNat_queueTx_length_of_inv h, memRead_cells, List.drop_zero, List.take_length]

/-- What XPORT answers to it is what it answers to the bytes of the queue. -/
theorem answer_queueEncoded {s : State} (h : s.Inv) :
    (queueEncoded s).bus.answer (sentBytes (queueEncoded s)) = s.bus.answer (queueTx s) :=
  congrArg s.bus.answer (sentBytes_queueEncoded h)

theorem handOver_queueEncoded {s : State} (h : s.Inv) : handOver (queueEncoded s) =
    { execSent s with
      fp := BitVec.ofNat 16 (queueFrames s).length
      ofs := BitVec.ofNat 32 (queueTx s).length
      phase := .encode } := by
  rw [handOver, sentBytes_queueEncoded h]
  rfl

/-- EXEC on a validated bus is its encode walk, over the whole queue, and then the transfer (R204). -/
theorem execExec_of_ready {s : State} (h : s.Inv) (hr : s.ready = true) :
    execExec s = finishExec s.dq (transfer (queueEncoded s)) := by
  rw [execExec, if_pos hr, encodeWalk_of_inv h, onNext_next, ← queueTx_length]
  rfl

/-! ### EXEC by the answer of XPORT -/

/-- The transfer that is never answered (20_memory.md R67). -/
theorem execExec_of_never {s : State} (h : s.Inv) (hr : s.ready = true)
    (ha : s.bus.answer (queueTx s) = .never) :
    execExec s = .next { execSent s with
      fp := BitVec.ofNat 16 s.dq.length
      ofs := BitVec.ofNat 32 (queueTx s).length
      phase := .transfer
      host := { s.host with response := none } } := by
  have hx : transfer (queueEncoded s) = unanswered (handOver (queueEncoded s)) := by
    rw [transfer, answer_queueEncoded h, ha]
  rw [execExec_of_ready h hr, hx, handOver_queueEncoded h, queueFrames_length_eq_of_inv h]
  rfl

/-- The transport error (42_batcher.md R215, R216). -/
theorem execExec_of_ioerror {s : State} (h : s.Inv) (hr : s.ready = true)
    (ha : s.bus.answer (queueTx s) = .ioerror) :
    execExec s = .next
      (execAborted { execSent s with rxb := [], rxn := 0#32 } 0 (queueTx s).length 4#4 0#4) := by
  have hx : transfer (queueEncoded s) =
      abort .transportIo (rewind (storeNothing (handOver (queueEncoded s)))) := by
    rw [transfer, answer_queueEncoded h, ha]
  rw [execExec_of_ready h hr, hx, handOver_queueEncoded h]
  rfl

/-- The answer of another length than what was sent (R209, R213). -/
theorem execExec_of_length_ne {s : State} (h : s.Inv) (hr : s.ready = true) {rx : List Byte}
    (ha : s.bus.answer (queueTx s) = .ok rx) (hl : rx.length ≠ (queueTx s).length) :
    execExec s = .next (execAborted
      { execSent s with rxb := Memory.cells 0 (rx.take (bufmax s.params)), rxn := rxLength rx.length }
      0 (queueTx s).length 2#4 1#4) := by
  have hx : transfer (queueEncoded s) =
      abort .framingLen (rewind (storeAnswer rx (handOver (queueEncoded s)))) := by
    rw [transfer, answer_queueEncoded h, ha]
    exact if_neg (ofNat_queueTx_length_of_inv h ▸ hl)
  rw [execExec_of_ready h hr, hx, handOver_queueEncoded h]
  rfl

/-- EXEC where the parse walk begins over the answer `rx` (42_batcher.md R210). -/
def parseBegun (s : State) (rx : List Byte) : State :=
  beginParse { execSent s with rxb := Memory.cells 0 rx, rxn := BitVec.ofNat 32 rx.length }

/-- The answer of the right length starts the parse walk (R209, R210). -/
theorem execExec_of_length_eq {s : State} (h : s.Inv) (hr : s.ready = true) {rx : List Byte}
    (ha : s.bus.answer (queueTx s) = .ok rx) (hl : rx.length = (queueTx s).length) :
    execExec s = onNext (walk s.dq (parseBegun s rx))
      (fun t => .next (if t.phase = .parse then complete t else t)) := by
  have hx : transfer (queueEncoded s) = beginParse (storeAnswer rx (handOver (queueEncoded s))) := by
    rw [transfer, answer_queueEncoded h, ha]
    exact if_pos (hl.trans (ofNat_queueTx_length_of_inv h).symm)
  have hb : rx.length ≤ bufmax s.params := hl.trans_le (queueTx_length_le_of_inv h)
  have hn : rxLength rx.length = BitVec.ofNat 32 rx.length := if_pos (hb.trans_lt (bufmax_lt_of_inv h))
  have hs : storeAnswer rx (handOver (queueEncoded s)) =
      { handOver (queueEncoded s) with
        rxb := Memory.cells 0 rx, rxn := BitVec.ofNat 32 rx.length } := by
    rw [storeAnswer, hn, show bufmax (handOver (queueEncoded s)).params = bufmax s.params from rfl,
      List.take_of_length_le hb]
  rw [execExec_of_ready h hr, hx, hs, handOver_queueEncoded h]
  rfl

/-- The parse walk of EXEC over an answer of the right length: every result delivered in order, or the
abort of the first frame that raises (R210 to R214). -/
theorem parseWalk_of_inv {s : State} (h : s.Inv) {rx : List Byte} (hl : rx.length = (queueTx s).length) :
    (∀ vs, parseQueue s (queueFrames s) rx = .ok vs → vs.length = s.dq.length ∧
      ∃ r, r.take s.dq.length = vs ∧
        walk s.dq (parseBegun s rx) = .next { parseBegun s rx with
          res := r
          ofs := BitVec.ofNat 32 rx.length
          fp := BitVec.ofNat 16 s.dq.length
          pecr := parsePecr s (execSent s).pecr (queueFrames s) rx }) ∧
    (∀ i e, parseQueue s (queueFrames s) rx = .error (i, e) → i < s.dq.length ∧
        walk s.dq (parseBegun s rx) = .next (abort e { parseBegun s rx with
          ofs := BitVec.ofNat 32 (((queueFrames s).take i).map frameCount).sum
          fp := BitVec.ofNat 16 i
          pecr := parsePecr s (execSent s).pecr (queueFrames s) rx })) := by
  have hw := walk_parse (map_decodeFrame_queue h.queueLegal) (parseBegun s rx) rx rfl rfl
    (by rw [hl, queueTx_length]; exact Nat.zero_add _)
    ((hl.trans_le (queueTx_length_le_of_inv h)).trans_lt (bufmax_lt_of_inv h))
    ((Nat.zero_add _).trans_le (queueFrames_length_of_inv h)) h.qdepthRange.2 (Nat.zero_le _)
  have hf : (parseBegun s rx).fp.toNat = 0 := rfl
  have ho : (parseBegun s rx).ofs.toNat = 0 := rfl
  have hp : (parseBegun s rx).pecr = (execSent s).pecr := rfl
  rw [parseQueue_congr (s := s) (t := parseBegun s rx) rfl rfl rfl rfl,
    parsePecr_congr (s := s) (t := parseBegun s rx) rfl rfl rfl rfl, hf, ho, hp, List.drop_zero,
    queueFrames_length_eq_of_inv h] at hw
  simp only [Nat.zero_add, List.take_zero, List.nil_append] at hw
  refine ⟨fun vs hq => ?_, fun i e hq => ?_⟩ <;> rw [hq] at hw <;> exact hw

/-- EXEC where every slice parses (42_batcher.md R212). -/
theorem execExec_of_parsed {s : State} (h : s.Inv) (hr : s.ready = true) {rx : List Byte}
    (ha : s.bus.answer (queueTx s) = .ok rx) (hl : rx.length = (queueTx s).length) {vs : List DWord}
    (hp : parseQueue s (queueFrames s) rx = .ok vs) :
    vs.length = s.dq.length ∧ execExec s = .next (respond .empty { execSent s with
      res := vs, done := true, dq := [], phase := .idle
      fp := BitVec.ofNat 16 vs.length, ofs := BitVec.ofNat 32 rx.length
      rxb := Memory.cells 0 rx, rxn := BitVec.ofNat 32 rx.length
      pecr := parsePecr s (execSent s).pecr (queueFrames s) rx }) := by
  obtain ⟨hn, r, hv, hw⟩ := (parseWalk_of_inv h hl).1 vs hp
  refine ⟨hn, ?_⟩
  rw [execExec_of_length_eq h hr ha hl, hw, onNext_next, hn, ← hv]
  rfl

/-- EXEC where frame `i` is the first whose PARSE raises (R213, R214, R216). -/
theorem execExec_of_parse_error {s : State} (h : s.Inv) (hr : s.ready = true) {rx : List Byte}
    (ha : s.bus.answer (queueTx s) = .ok rx) (hl : rx.length = (queueTx s).length) {i : Nat}
    {e : ErrorKind} (hp : parseQueue s (queueFrames s) rx = .error (i, e)) :
    i < s.dq.length ∧ execExec s = .next (execAborted
      { execSent s with
        rxb := Memory.cells 0 rx, rxn := BitVec.ofNat 32 rx.length
        pecr := parsePecr s (execSent s).pecr (queueFrames s) rx }
      i (((queueFrames s).take i).map frameCount).sum e.code e.sub) := by
  obtain ⟨hi, hw⟩ := (parseWalk_of_inv h hl).2 i e hp
  refine ⟨hi, ?_⟩
  rw [execExec_of_length_eq h hr ha hl, hw, onNext_next,
    if_neg (by rw [abort_phase]; exact fun x => nomatch x)]
  rfl

/-- Settles O41: the answer's length is checked before any frame is parsed. -/
theorem execAbortsOnLengthMismatch : Obligations.ExecAbortsOnLengthMismatch := by
  intro s rx h hr ha hl
  refine ⟨rxLength rx.length, fun hn => ?_, execExec_of_length_ne h hr ha hl⟩
  rw [rxLength, if_pos hn, BitVec.toNat_ofNat, Nat.mod_eq_of_lt hn]

end Sys2Proof.Proofs
end

section
/-! PROOF. The state family, the invariant (10_state.md): the reset state meets `State.Inv`, every host command
keeps it, every step keeps it. What a host command can do is said once, by `CommandEnds`. -/

namespace Sys2Proof.Proofs

open Sys2Proof.Machine Sys2Proof.Laws

/-! ### What a host command can do -/

/-- The ways a host command can end when it goes on, EXEC apart, whose ways are those of `execExec`. -/
inductive CommandEnds (s t : State) : Instr → Prop where
  | refused {i : Instr} (e : ErrorKind) (ht : t = raise e s) : CommandEnds s t i
  | reads {i : Instr} (p : Payload) (ht : t = respond p s) : CommandEnds s t i
  | resets (ht : t = respond .empty (toReset s)) : CommandEnds s t .reset
  | configures (k : BitVec 8) (v : Word) (hr : s.ready = false)
      (ht : t = respond .empty (csrWrite s k v)) : CommandEnds s t (.csrWr k v)
  | rejectsBus (b m x : Word) (hr : s.ready = false) (e : ErrorKind)
      (ht : t = raise e (warnExtraFlags x s)) : CommandEnds s t (.init b m x)
  | validatesBus (b m x : Word) (hr : s.ready = false)
      (ht : t = respond .empty { warnExtraFlags x s with ready := true }) : CommandEnds s t (.init b m x)
  | clearsRecord (ht : t = respond .empty { s with err := 0#4, esub := 0#4, warn := false }) :
      CommandEnds s t .errClr
  | pushes (dw0 : Word) (dw1 : DWord) (f : Frame) (hf : decodeFrame ⟨dw0, dw1⟩ = .ok f)
      (hq : s.dq.length < s.params.qdepth) (ht : t = respond .empty { s with dq := s.dq ++ [⟨dw0, dw1⟩] }) :
      CommandEnds s t (.dqPush dw0 dw1)
  | clearsQueue (ht : t = respond .empty { s with dq := [] }) : CommandEnds s t .dqClr
  | computes {i : Instr} (l : List Byte) (p : Payload) (ht : t = respond p (computePec l s)) :
      CommandEnds s t i
  | mismatches {i : Instr} (l : List Byte) (ht : t = raise .pecMismatch (computePec l s)) :
      CommandEnds s t i
  | batches (h : execExec s = .next t) : CommandEnds s t .exec

/-- CSR.RD answers a word or refuses the number (10_state.md R42). -/
theorem readCsr_cases (k : BitVec 8) (s : State) :
    (∃ v, csrRead s k = some v ∧ readCsr k s = respond (.word v) s) ∨
      (csrRead s k = none ∧ readCsr k s = raise .illegalCsrNum s) := by
  unfold readCsr
  cases hv : csrRead s k with
  | some v => exact .inl ⟨v, rfl, rfl⟩
  | none => exact .inr ⟨rfl, rfl⟩

/-- RES.RD answers a result or refuses the index (42_batcher.md R217). -/
theorem readResult_cases (i : BitVec 16) (s : State) :
    (∃ v, readResult i s = respond (.result v) s) ∨ readResult i s = raise .stateNoResult s := by
  unfold readResult
  split
  · exact .inl ⟨_, rfl⟩
  · exact .inr rfl

/-- What a host command can do when it goes on. -/
theorem exec_command_next {i : Instr} {s t : State} (hi : isCommand i = true)
    (h : exec i s = .next t) : CommandEnds s t i := by
  cases i with
  | rdA | wrA | rdB | wrB | rdC | wrC => cases hi
  | reset =>
    cases h
    exact .resets rfl
  | csrRd k =>
    cases h
    rcases readCsr_cases k s with ⟨v, -, h⟩ | ⟨-, h⟩
    · exact .reads _ h
    · exact .refused _ h
  | csrWr k v =>
    cases h
    rcases writeCsr_cases k v s with ⟨e, h⟩ | ⟨hr, -, h⟩
    · exact .refused e h
    · exact .configures k v hr h
  | init b m x =>
    cases h
    rcases initBus_cases b m x s with ⟨e, h⟩ | ⟨hr, ⟨e, h⟩ | h⟩
    · exact .refused e h
    · exact .rejectsBus b m x hr e h
    · exact .validatesBus b m x hr h
  | errClr =>
    cases h
    exact .clearsRecord rfl
  | dqPush dw0 dw1 =>
    cases h
    rcases pushDescriptor_cases ⟨dw0, dw1⟩ s with h | h | ⟨f, hf, hq, h⟩
    · exact .refused _ h
    · exact .refused _ h
    · exact .pushes dw0 dw1 f hf hq h
  | dqClr =>
    cases h
    exact .clearsQueue rfl
  | exec => exact .batches h
  | resRd k =>
    cases h
    rcases readResult_cases k s with ⟨v, h⟩ | h
    · exact .reads _ h
    · exact .refused _ h
  | pecCalc l =>
    cases h
    exact .computes l _ rfl
  | pecChk l q0 q1 =>
    simp only [exec, execPecChk] at h
    split at h
    · exact .computes l _ (Host.Outcome.next.inj h).symm
    · exact .mismatches l (Host.Outcome.next.inj h).symm

/-! ### The error record -/

/-- Every error is a pair of the table (60_exceptions.md R275). -/
theorem errorRecordOk_code_sub (e : ErrorKind) : errorRecordOk e.code e.sub = true := by
  cases e <;> decide

/-! ### Buffers -/

theorem gapless_cells (l : List Byte) : gapless (Memory.cells 0 l) = true := by
  simp [gapless]

/-! ### The reset state -/

/-- The state after reset meets the invariant, at every width of the engine. -/
theorem Inv_resetWith {p : Params} (h1 : 1 ≤ p.qdepth) (h2 : p.qdepth ≤ 65535) :
    (State.resetWith p).Inv where
  qdepthRange := ⟨h1, h2⟩
  pecRegisters := by
    have hw := p.pecW.property.2
    have hs := holdVector_toNat hw (Config.pecSeedRst p.pecW) ▸ (Config.pecSeedRst p.pecW).isLt
    have ht := holdVector_toNat hw (p.pecTapsRst ||| 1#p.pecW.val) ▸ (p.pecTapsRst ||| 1#p.pecW.val).isLt
    exact ⟨hs, ht, hs⟩
  tapsBitZero := holdVector_taps_zero p.pecW p.pecTapsRst
  queueFits := Nat.zero_le _
  queueLegal := rfl
  resultsFit := Nat.zero_le _
  txForm := ⟨rfl, rfl⟩
  txFits := Nat.zero_le _
  rxForm := ⟨rfl, Nat.zero_le _⟩
  errorRecord := rfl
  atRest := .inl rfl
  noPartialResults := fun _ => rfl
  doneCount := fun h => nomatch h

/-- Settles O4: the base case of the invariant; QDEPTH of the reset state is one more than a number below
65535 (log entry 1). -/
theorem resetStateMeetsInvariant : Obligations.ResetStateMeetsInvariant :=
  ⟨fun _ => Inv_resetWith, Inv_resetWith (Nat.succ_pos _) Config.qdepthLessOne.isLt⟩

/-! ### What the invariant does not speak of, and what keeps it -/

theorem Inv_respond {s : State} (h : s.Inv) (p : Payload) : (respond p s).Inv := { h with }

/-- Error entry records a pair of the table (60_exceptions.md R286). -/
theorem Inv_raise {s : State} (h : s.Inv) (e : ErrorKind) : (raise e s).Inv :=
  { h with errorRecord := errorRecordOk_code_sub e }

theorem Inv_toReset {s : State} (h : s.Inv) : (toReset s).Inv :=
  { Inv_resetWith h.qdepthRange.1 h.qdepthRange.2 with }

theorem Inv_hardwareReset {s : State} (h : s.Inv) (rest : List HostInput) : (hardwareReset rest s).Inv :=
  { Inv_toReset h with }

theorem Inv_warnExtraFlags {s : State} (h : s.Inv) (x : Word) : (warnExtraFlags x s).Inv := { h with }

theorem Inv_validated {s : State} (h : s.Inv) : State.Inv { s with ready := true } := { h with }

theorem Inv_recordCleared {s : State} (h : s.Inv) :
    State.Inv { s with err := 0#4, esub := 0#4, warn := false } :=
  { h with errorRecord := rfl }

/-- PECR takes any vector of PEC_W bits (10_state.md R27). -/
theorem Inv_pecr {s : State} (h : s.Inv) {p : PecReg} (hp : p.toNat < 2 ^ s.pecW) :
    State.Inv { s with pecr := p } :=
  { h with pecRegisters := ⟨h.pecRegisters.1, h.pecRegisters.2.1, hp⟩ }

theorem Inv_computePec {s : State} (h : s.Inv) (l : List Byte) : (computePec l s).Inv :=
  Inv_pecr h (pecOf_lt s l)

/-- A vector held in a register of the engine has PEC_W bits. -/
theorem holdVector_lt (s : State) (v : BitVec s.pecW) : (holdVector v).toNat < 2 ^ s.pecW :=
  holdVector_toNat s.params.pecW.property.2 v ▸ v.isLt

/-- CSR.WR keeps PEC_W bits of PEC_SEED and PEC_TAPS, and bit 0 of PEC_TAPS (10_state.md R34, R35). -/
theorem Inv_csrWrite {s : State} (h : s.Inv) (k : BitVec 8) (v : Word) : (csrWrite s k v).Inv := by
  obtain ⟨hseed, htaps, hpecr⟩ := h.pecRegisters
  unfold csrWrite
  split
  · exact { h with }
  · exact { h with pecRegisters := ⟨holdVector_lt s _, htaps, hpecr⟩ }
  · exact { h with
      pecRegisters := ⟨hseed, holdVector_lt s _, hpecr⟩
      tapsBitZero := holdVector_taps_zero s.params.pecW _ }
  · exact { h with }
  · exact h

/-- DQ.PUSH of a legal descriptor where there is room (10_state.md R28). -/
theorem Inv_pushed {s : State} (h : s.Inv) {d : Descriptor} {f : Frame} (hd : decodeFrame d = .ok f)
    (hq : s.dq.length < s.params.qdepth) : State.Inv { s with dq := s.dq ++ [d] } :=
  { h with
    queueFits := by simpa using hq
    queueLegal := by simp [h.queueLegal, descriptorLegal, hd] }

theorem Inv_queueCleared {s : State} (h : s.Inv) : State.Inv { s with dq := [] } :=
  { h with queueFits := Nat.zero_le _, queueLegal := rfl }

/-- RXB takes bytes from offset 0 on, at most BUFMAX of them; RXN is free (10_state.md R29, R40). -/
theorem Inv_received {s : State} (h : s.Inv) {l : List Byte} (hl : l.length ≤ bufmax s.params)
    (rxn : Word) : State.Inv { s with rxb := Memory.cells 0 l, rxn := rxn } :=
  { h with rxForm := ⟨gapless_cells l, (cells_length 0 l).trans_le hl⟩ }

/-! ### EXEC keeps the invariant -/

/-- The state from which the ends of EXEC are told: TXB holds TXN bytes, and PECR what ENCODE left. -/
theorem Inv_execSent {s : State} (h : s.Inv) : (execSent s).Inv :=
  { h with
    pecRegisters := ⟨h.pecRegisters.1, h.pecRegisters.2.1, foldl_framePecr_lt h.pecRegisters.2.2 _⟩
    txForm := ⟨gapless_cells _, (cells_length 0 _).trans (ofNat_queueTx_length_of_inv h).symm⟩
    txFits := (ofNat_queueTx_length_of_inv h).trans_le (queueTx_length_le_of_inv h) }

/-- An abort leaves no result, no DONE and an empty queue (42_batcher.md R216). -/
theorem Inv_execAborted {s : State} (h : s.Inv) (fp ofs : Nat) {err esub : BitVec 4}
    (he : errorRecordOk err esub = true) : (execAborted s fp ofs err esub).Inv :=
  { h with
    queueFits := Nat.zero_le _, queueLegal := rfl, resultsFit := Nat.zero_le _, errorRecord := he
    atRest := .inl rfl, noPartialResults := fun _ => rfl, doneCount := fun hd => nomatch hd }

/-- A transfer that is outstanding: FP and RESN need not agree (20_memory.md R67). -/
theorem Inv_outstanding {s : State} (h : s.Inv) (fp : BitVec 16) (ofs : BitVec 32) (host : HostPort) :
    State.Inv { s with fp := fp, ofs := ofs, phase := .transfer, host := host } :=
  { h with atRest := .inr rfl, doneCount := fun _ hp => nomatch hp }

/-- A success leaves one result per frame, FP at their number and an empty queue (42_batcher.md R212). -/
theorem Inv_completed {s : State} (h : s.Inv) {vs : List DWord} (hv : vs.length ≤ s.params.qdepth)
    (ofs : BitVec 32) : State.Inv { s with
      res := vs, done := true, dq := [], phase := .idle, fp := BitVec.ofNat 16 vs.length, ofs := ofs } :=
  { h with
    queueFits := Nat.zero_le _, queueLegal := rfl, resultsFit := hv, atRest := .inl rfl
    noPartialResults := fun hd => nomatch hd
    doneCount := fun _ _ => by
      have := h.qdepthRange.2
      rw [BitVec.toNat_ofNat]
      exact Nat.mod_eq_of_lt (by omega) }

/-- EXEC keeps the invariant, whatever XPORT answers. -/
theorem Inv_execExec {s t : State} (h : s.Inv) (ht : execExec s = .next t) : t.Inv := by
  cases hr : s.ready with
  | false =>
    rw [execExec, hr] at ht
    cases ht
    exact Inv_raise h _
  | true =>
    have hs := Inv_execSent h
    cases ha : s.bus.answer (queueTx s) with
    | never =>
      cases (execExec_of_never h hr ha).symm.trans ht
      exact Inv_outstanding hs _ _ _
    | ioerror =>
      cases (execExec_of_ioerror h hr ha).symm.trans ht
      exact Inv_execAborted (Inv_received hs (l := []) (Nat.zero_le _) _) _ _ rfl
    | ok rx =>
      by_cases hl : rx.length = (queueTx s).length
      · have hx := Inv_pecr
          (Inv_received hs (hl.trans_le (queueTx_length_le_of_inv h)) (BitVec.ofNat 32 rx.length))
          (parsePecr_lt (s := s) hs.pecRegisters.2.2 (queueFrames s) rx)
        cases hp : parseQueue s (queueFrames s) rx with
        | ok vs =>
          obtain ⟨hv, hn⟩ := execExec_of_parsed h hr ha hl hp
          cases hn.symm.trans ht
          exact Inv_respond (Inv_completed hx (hv.trans_le h.queueFits) _) _
        | error p =>
          obtain ⟨i, e⟩ := p
          cases (execExec_of_parse_error h hr ha hl hp).2.symm.trans ht
          exact Inv_execAborted hx _ _ (errorRecordOk_code_sub e)
      · cases (execExec_of_length_ne h hr ha hl).symm.trans ht
        exact Inv_execAborted (Inv_received hs (List.length_take_le _ _) _) _ _ rfl

/-! ### The step keeps the invariant -/

/-- Every host command keeps the invariant. -/
theorem Inv_exec_command {i : Instr} (hi : isCommand i = true) {s t : State} (h : s.Inv)
    (ht : exec i s = .next t) : t.Inv := by
  cases exec_command_next hi ht with
  | refused e hx => exact hx ▸ Inv_raise h e
  | reads p hx => exact hx ▸ Inv_respond h p
  | resets hx => exact hx ▸ Inv_respond (Inv_toReset h) _
  | configures k v _ hx => exact hx ▸ Inv_respond (Inv_csrWrite h k v) _
  | rejectsBus _ _ x _ e hx => exact hx ▸ Inv_raise (Inv_warnExtraFlags h x) e
  | validatesBus _ _ x _ hx => exact hx ▸ Inv_respond (Inv_validated (Inv_warnExtraFlags h x)) _
  | clearsRecord hx => exact hx ▸ Inv_respond (Inv_recordCleared h) _
  | pushes _ _ f hf hq hx => exact hx ▸ Inv_respond (Inv_pushed h hf hq) _
  | clearsQueue hx => exact hx ▸ Inv_respond (Inv_queueCleared h) _
  | computes l p hx => exact hx ▸ Inv_respond (Inv_computePec h l) p
  | mismatches l hx => exact hx ▸ Inv_raise (Inv_computePec h l) _
  | batches hx => exact Inv_execExec h hx

/-- A message that goes on keeps the invariant: it is a host command, or raises ILLEGAL CMD
(30_encoding.md R110). -/
theorem Inv_runCode_host {m : Message} {s t : State} (h : s.Inv)
    (ht : runCode (.host m) s = .next t) : t.Inv := by
  rw [runCode, decode_host] at ht
  obtain hd | hd | hd | ⟨i, hi, hd⟩ := decodeMessage_cases m <;> rw [hd] at ht
  · cases ht
    exact Inv_raise h _
  · cases ht
    exact Inv_raise h _
  · cases ht
  · exact Inv_exec_command hi h ht

/-- Settles O12, by where the invariant lets a step begin (`State.Inv.atRest`) and what comes next there. -/
theorem stepKeepsInvariant : Obligations.StepKeepsInvariant := by
  intro s t h ht
  cases hr : s.resetLands with
  | some rest =>
    cases (step_of_resetLands hr).symm.trans ht
    exact Inv_hardwareReset h rest
  | none =>
    rcases h.atRest with hp | hp
    · match hq : s.host.pending with
      | [] =>
        cases (step_of_no_input hp hq).symm.trans ht
        exact h
      | .hardwareReset :: rest => simp [State.resetLands, hp, hq] at hr
      | .command m :: rest =>
        rw [step_of_command hp hq] at ht
        exact Inv_runCode_host (Inv_takeInput h) ht
    · cases (step_of_transfer hr hp).symm.trans ht
      exact h

end Sys2Proof.Proofs
end

section
/-! PROOF. The state family, the registers (10_state.md): the values after reset, the CSR numbers that are
refused, who may change the configuration, the flags and the error record. -/

namespace Sys2Proof.Proofs

open Sys2Proof.Machine Sys2Proof.Laws

/-! ### The values after reset (R46) -/

/-- PEC_SEED and PECR of the reset state, as a number (41_pec_engine.md R181). -/
theorem pecSeedRst_toNat (w : PecWidth) : (holdVector (Config.pecSeedRst w)).toNat = 0x0010 % 2 ^ w.val :=
  (holdVector_toNat w.property.2 _).trans (BitVec.toNat_ofNat _ _)

/-- The bits of a tap mask with bit 0 forced to 1, as a register holds it (10_state.md R35). -/
theorem getLsbD_holdVector_taps (w : PecWidth) (v : BitVec w.val) (k : Nat) :
    (holdVector (v ||| 1#w.val)).getLsbD k = (decide (k = 0) || v.getLsbD k) := by
  have hw := w.property
  rw [holdVector, BitVec.getLsbD_setWidth, BitVec.getLsbD_or, BitVec.getLsbD_one]
  by_cases hk : k < 16
  · simp [hk, show 0 < w.val by omega, Bool.or_comm]
  · simp [hk, show k ≠ 0 by omega, BitVec.getLsbD_of_ge v k (by omega)]

/-- STATUS of the reset state. -/
theorem statusWord_resetWith (p : Params) : (State.resetWith p).statusWord = 0#32 := by
  show 0#20 ++ 0#4 ++ 0#4 ++ 0#1 ++ BitVec.ofBool false ++ BitVec.ofBool false ++ BitVec.ofBool false = 0#32
  decide

/-- Settles O1: the engine's registers and STATUS by the lemmas above, every other row as it is written. -/
theorem resetStateHoldsTheTable : Obligations.ResetStateHoldsTheTable :=
  ⟨fun p => ⟨statusWord_resetWith p, rfl, rfl, rfl, pecSeedRst_toNat p.pecW,
      getLsbD_holdVector_taps p.pecW p.pecTapsRst, rfl, rfl, rfl, rfl, rfl, rfl, rfl, rfl, fun _ => ⟨rfl, rfl⟩, pecSeedRst_toNat p.pecW, rfl⟩,
    rfl, rfl, pecSeedRst_toNat Config.pecWDefault, pecSeedRst_toNat Config.pecWDefault⟩

/-! ### The CSR numbers (R30, R42, R43) -/

/-- Settles O49: CSR.RD finds no such register, and CSR.WR checks the number first (43_host_control.md R242). -/
theorem unimplementedCsrNumbersAreIllegal : Obligations.UnimplementedCsrNumbersAreIllegal := by
  intro s k v hk
  constructor
  · rcases readCsr_cases k s with ⟨w, hw, -⟩ | ⟨-, h⟩
    · have := csrRead_isSome s k
      simp [hw] at this
      omega
    · exact congrArg Host.Outcome.next h
  · exact congrArg Host.Outcome.next (if_pos hk : writeCsr k v s = raise .illegalCsrNum s)

/-- Settles O51: the check that fails, in the order of R242. -/
theorem csrWrRefusals : Obligations.CsrWrRefusals := by
  intro s k v
  constructor
  · intro hk
    have hn : ¬ 10 < k.toNat ∧ csrWritable k = false := by
      simp only [List.mem_cons, List.not_mem_nil, or_false] at hk
      simp only [csrWritable, decide_eq_false_iff_not]
      omega
    have h : writeCsr k v s = raise .stateReadOnly s := by
      rw [writeCsr, if_neg hn.1, hn.2, Bool.not_false, if_pos rfl]
    exact congrArg Host.Outcome.next h
  · intro hk hr
    have hn : ¬ 10 < k.toNat ∧ csrWritable k = true := by
      simp only [List.mem_cons, List.not_mem_nil, or_false] at hk
      simp only [csrWritable, decide_eq_true_eq]
      omega
    have h : writeCsr k v s = raise .stateLocked s := by
      rw [writeCsr, if_neg hn.1, hn.2, if_neg (by decide), if_pos hr]
    exact congrArg Host.Outcome.next h

/-! ### The configuration (R43, R45) -/

/-- An instruction is a host command or a frame operation (30_encoding.md R101, R108). -/
theorem isCommand_or_frame (i : Instr) : isCommand i = true ∨ ∃ f : Frame, i = f.instr := by
  cases i with
  | rdA a n v => exact .inr ⟨⟨.a, true, a, n, v⟩, rfl⟩
  | wrA a n v => exact .inr ⟨⟨.a, false, a, n, v⟩, rfl⟩
  | rdB a n v => exact .inr ⟨⟨.b, true, a, n, v⟩, rfl⟩
  | wrB a n v => exact .inr ⟨⟨.b, false, a, n, v⟩, rfl⟩
  | rdC a n v => exact .inr ⟨⟨.c, true, a, n, v⟩, rfl⟩
  | wrC a n v => exact .inr ⟨⟨.c, false, a, n, v⟩, rfl⟩
  | reset | csrRd | csrWr | init | errClr | dqPush | dqClr | exec | resRd | pecCalc | pecChk =>
    exact .inl rfl

/-- A frame operation leaves the configuration as it is, its abort included. -/
theorem sameConfig_exec_frame {f : Frame} {s t : State} (h : exec f.instr s = .next t) :
    SameConfig s t := by
  rw [exec_frame_instr] at h
  rcases execFrame_next h with hg | ⟨-, -, hc, -⟩
  · exact hg.toSameConfig
  · exact hc

/-- EXEC leaves the configuration as it is. -/
theorem sameConfig_execExec {s t : State} (h : execExec s = .next t) : SameConfig s t := by
  cases execExec_next h with
  | refused _ ht =>
    subst ht
    exact ⟨rfl, rfl, rfl, rfl, rfl, rfl, rfl, rfl, rfl⟩
  | waits hc | aborts hc | completes hc => exact hc

/-- No host command changes a parameter (R45). -/
theorem params_of_command {s t : State} {i : Instr} (h : CommandEnds s t i) : t.params = s.params := by
  cases h with
  | configures k v _ ht =>
    obtain ⟨e, p, q, o, a, hw⟩ := csrWrite_frame s k v
    rw [ht, respond_params, hw]
  | batches ht => exact (sameConfig_execExec ht).params
  | refused _ ht | reads _ ht | resets ht | rejectsBus _ _ _ _ _ ht | validatesBus _ _ _ _ ht
  | clearsRecord ht | pushes _ _ _ _ _ ht | clearsQueue ht | computes _ _ ht | mismatches _ ht =>
    rw [ht]
    rfl

/-- READY is 1 in `t`, and the registers it locks are those of `s` (R43). -/
structure LockedAs (s t : State) : Prop where
  ready : t.ready = true
  echoChk : t.echoChk = s.echoChk
  pecSeed : t.pecSeed = s.pecSeed
  pecTaps : t.pecTaps = s.pecTaps
  opc : t.opc = s.opc
  hwaddr : t.hwaddr = s.hwaddr

theorem lockedAs_of_sameConfig {s t : State} (hr : s.ready = true) (h : SameConfig s t) : LockedAs s t :=
  ⟨h.ready.trans hr, h.echoChk, h.pecSeed, h.pecTaps, h.opc, h.hwaddr⟩

/-- While READY is 1 a host command other than RESET keeps it and the registers it locks: CSR.WR and INIT
change them only where READY is 0. -/
theorem lockedAs_of_command {s t : State} {i : Instr} (hr : s.ready = true) (hi : i ≠ .reset)
    (h : CommandEnds s t i) : LockedAs s t := by
  cases h with
  | resets => exact absurd rfl hi
  | configures _ _ h0 | rejectsBus _ _ _ h0 | validatesBus _ _ _ h0 => rw [hr] at h0; cases h0
  | batches ht => exact lockedAs_of_sameConfig hr (sameConfig_execExec ht)
  | refused _ ht | reads _ ht | clearsRecord ht | pushes _ _ _ _ _ ht | clearsQueue ht | computes _ _ ht
  | mismatches _ ht =>
    subst ht
    exact ⟨hr, rfl, rfl, rfl, rfl, rfl⟩

/-- Settles O56, by command or frame operation. -/
theorem configurationIsLockedWhileReady : Obligations.ConfigurationIsLockedWhileReady := by
  constructor
  · intro i s t hr hi h
    have hl : LockedAs s t := by
      rcases isCommand_or_frame i with hc | ⟨f, rfl⟩
      · exact lockedAs_of_command hr hi (exec_command_next hc h)
      · exact lockedAs_of_sameConfig hr (sameConfig_exec_frame h)
    exact ⟨hl.ready, hl.echoChk, hl.pecSeed, hl.pecTaps, hl.opc, hl.hwaddr⟩
  · intro i s t h
    rcases isCommand_or_frame i with hc | ⟨f, rfl⟩
    · exact params_of_command (exec_command_next hc h)
    · exact (sameConfig_exec_frame h).params

/-! ### The flags (R26) -/

/-- A register write changes no flag. -/
theorem csrWrite_flags (s : State) (k : BitVec 8) (v : Word) :
    (csrWrite s k v).ready = s.ready ∧ (csrWrite s k v).done = s.done ∧ (csrWrite s k v).warn = s.warn := by
  obtain ⟨e, p, q, o, a, hw⟩ := csrWrite_frame s k v
  rw [hw]
  exact ⟨rfl, rfl, rfl⟩

/-- Settles O57: the commands that are not listed leave the flags, and the listed ones theirs. -/
theorem flagsChangeOnlyAsListed : Obligations.FlagsChangeOnlyAsListed := by
  intro i s t hi h
  cases exec_command_next hi h with
  | resets => exact ⟨fun _ => .inr rfl, fun _ => .inr rfl, fun _ => .inr (.inr rfl)⟩
  | rejectsBus b m x _ _ ht | validatesBus b m x _ ht =>
    subst ht
    exact ⟨fun _ => .inl ⟨b, m, x, rfl⟩, fun hd => absurd rfl hd, fun _ => .inl ⟨b, m, x, rfl⟩⟩
  | clearsRecord ht =>
    subst ht
    exact ⟨fun hr => absurd rfl hr, fun hd => absurd rfl hd, fun _ => .inr (.inl rfl)⟩
  | batches hx =>
    have hc := sameConfig_execExec hx
    exact ⟨fun hr => absurd hc.ready hr, fun _ => .inl rfl, fun hw => absurd hc.warn hw⟩
  | configures k v _ ht =>
    subst ht
    obtain ⟨hr, hd, hw⟩ := csrWrite_flags s k v
    exact ⟨absurd hr, absurd hd, absurd hw⟩
  | refused _ ht | reads _ ht | pushes _ _ _ _ _ ht | clearsQueue ht | computes _ _ ht | mismatches _ ht =>
    subst ht
    exact ⟨absurd rfl, absurd rfl, absurd rfl⟩

/-! ### The error record and the response (R26; 60_exceptions.md R275, R286) -/

/-- What O58 asks of a command that is answered with `r`. -/
def AgreesWithRecord (i : Instr) (s t : State) (r : Response) : Prop :=
  (r.err ≠ 0#4 → t.err = r.err ∧ t.esub = r.esub ∧ r.payload = .empty ∧
    (r.err.toNat, r.esub.toNat) ∈ [(1, 1), (1, 2), (1, 3), (1, 4), (2, 1), (2, 2), (3, 0), (4, 0),
      (5, 1), (5, 2), (5, 3), (6, 1), (6, 2), (6, 3), (6, 4), (6, 5), (6, 6)]) ∧
  (r.err = 0#4 → r.esub = 0#4 ∧ (i ≠ .errClr → i ≠ .reset → t.err = s.err ∧ t.esub = s.esub))

/-- Every error of R275 agrees with the record it leaves. -/
theorem agreesWithRecord_of_error {i : Instr} {s t : State} {r : Response} (e : ErrorKind)
    (he : t.err = e.code) (hs : t.esub = e.sub)
    (ht : t.host.response = some { err := e.code, esub := e.sub, payload := .empty })
    (hr : t.host.response = some r) : AgreesWithRecord i s t r := by
  cases ht.symm.trans hr
  refine ⟨fun _ => ⟨he, hs, rfl, ?_⟩, fun h0 => ?_⟩
  · cases e <;> decide
  · cases e <;> cases h0

/-- So does every success that leaves the record as it was, or is one of the two that clear it. -/
theorem agreesWithRecord_of_success {i : Instr} {s t : State} {r : Response} {p : Payload}
    (hc : i ≠ .errClr → i ≠ .reset → t.err = s.err ∧ t.esub = s.esub)
    (ht : t.host.response = some { err := 0#4, esub := 0#4, payload := p })
    (hr : t.host.response = some r) : AgreesWithRecord i s t r := by
  cases ht.symm.trans hr
  exact ⟨fun h0 => absurd rfl h0, fun _ => ⟨rfl, hc⟩⟩

/-- An EXEC that is answered agrees with the record. -/
theorem agreesWithRecord_of_execExec {i : Instr} {s t : State} {r : Response} (h : execExec s = .next t)
    (hr : t.host.response = some r) : AgreesWithRecord i s t r := by
  cases execExec_next h with
  | refused _ ht =>
    subst ht
    exact agreesWithRecord_of_error .stateNotReady rfl rfl rfl hr
  | waits _ _ _ _ _ hn => cases hn.symm.trans hr
  | aborts _ e _ ha => exact agreesWithRecord_of_error e ha.err ha.esub ha.response hr
  | completes _ he hs _ _ _ ht => exact agreesWithRecord_of_success (fun _ _ => ⟨he, hs⟩) ht hr

/-- Settles O58: every way a command ends is an error entry, a success or the wait for XPORT. -/
theorem responseAgreesWithTheErrorRecord : Obligations.ResponseAgreesWithTheErrorRecord := by
  intro i s t r hi h hr
  show AgreesWithRecord i s t r
  cases exec_command_next hi h with
  | refused e ht | rejectsBus _ _ _ _ e ht =>
    subst ht
    exact agreesWithRecord_of_error e rfl rfl rfl hr
  | mismatches _ ht =>
    subst ht
    exact agreesWithRecord_of_error .pecMismatch rfl rfl rfl hr
  | resets ht =>
    subst ht
    exact agreesWithRecord_of_success (fun _ h0 => absurd rfl h0) rfl hr
  | clearsRecord ht =>
    subst ht
    exact agreesWithRecord_of_success (fun h0 => absurd rfl h0) rfl hr
  | configures k v _ ht =>
    obtain ⟨e, p, q, o, a, hw⟩ := csrWrite_frame s k v
    rw [hw] at ht
    subst ht
    exact agreesWithRecord_of_success (fun _ _ => ⟨rfl, rfl⟩) rfl hr
  | reads _ ht | validatesBus _ _ _ _ ht | pushes _ _ _ _ _ ht | clearsQueue ht | computes _ _ ht =>
    subst ht
    exact agreesWithRecord_of_success (fun _ _ => ⟨rfl, rfl⟩) rfl hr
  | batches hx => exact agreesWithRecord_of_execExec hx hr

end Sys2Proof.Proofs
end

section
/-! PROOF. The state family, noninterference (10_state.md R26, R27): an instruction is blind to what PECR, or
the error record, held before it. Blindness is kept by sequencing, so it is shown once for each shared
operation. -/

namespace Sys2Proof.Proofs

open Sys2Proof.Machine Sys2Proof.Laws

/-! ### Blindness -/

/-- What an instruction cannot see: PECR, or ERR, ESUB and WARN. -/
inductive Hidden where
  | pecr
  | record

/-- The one CSR that shows it (R31, R41). -/
def Hidden.csr (x : Hidden) : BitVec 8 :=
  match x with
  | .pecr => 10#8
  | .record => 0#8

/-- The state with what is hidden overwritten. -/
def hide (x : Hidden) (s : State) : State :=
  match x with
  | .pecr => { s with pecr := 0#16 }
  | .record => { s with err := 0#4, esub := 0#4, warn := false }

/-- An outcome with what is hidden overwritten in its next state. -/
def hideNext (x : Hidden) (r : Result) : Result := onNext r (fun s => .next (hide x s))

/-- A meaning does the same, what is hidden apart, whatever that held before. -/
def Blind (x : Hidden) (k : State → Result) : Prop :=
  ∀ s, hideNext x (k (hide x s)) = hideNext x (k s)

@[simp] theorem hideNext_next (x : Hidden) (s : State) : hideNext x (.next s) = .next (hide x s) := rfl

theorem hideNext_eq_next {x : Hidden} {r : Result} {u : State} :
    hideNext x r = .next u ↔ ∃ t, r = .next t ∧ hide x t = u := by
  rw [hideNext, onNext_eq_next]
  simp

/-- A blind meaning does the same from two states that differ in what is hidden. -/
theorem Blind.hideNext_eq {x : Hidden} {k : State → Result} (h : Blind x k) {s s' : State}
    (hs : hide x s' = hide x s) : hideNext x (k s') = hideNext x (k s) := by
  rw [← h s', hs, h s]

/-- Outcomes that differ in what is hidden still do after a blind meaning. -/
theorem hideNext_onNext {x : Hidden} {r r' : Result} {k : State → Result}
    (hr : hideNext x r = hideNext x r') (hk : Blind x k) : hideNext x (onNext r k) = hideNext x (onNext r' k) := by
  cases r with
  | next t =>
    obtain ⟨t', rfl, ht⟩ := hideNext_eq_next.mp hr.symm
    exact hk.hideNext_eq ht.symm
  | fault e => cases r' <;> simp_all [hideNext, onNext]
  | refused e => cases r' <;> simp_all [hideNext, onNext]

theorem Blind.onNext {x : Hidden} {g k : State → Result} (hg : Blind x g) (hk : Blind x k) :
    Blind x (fun s => onNext (g s) k) :=
  fun s => hideNext_onNext (hg s) hk

/-- A meaning that always goes on is blind where its next state is. -/
theorem blind_next {x : Hidden} {g : State → State} (h : ∀ s, hide x (g (hide x s)) = hide x (g s)) :
    Blind x (fun s => .next (g s)) :=
  fun s => congrArg Host.Outcome.next (h s)

/-- A meaning that a test of the state decides, where the test does not see what is hidden. -/
theorem blind_ite {x : Hidden} {c : State → Prop} [DecidablePred c] {g k : State → Result}
    (hc : ∀ s, c (hide x s) ↔ c s) (hg : Blind x g) (hk : Blind x k) :
    Blind x (fun s => if c s then g s else k s) := by
  intro s
  by_cases h : c s
  · simpa only [if_pos h, if_pos ((hc s).mpr h)] using hg s
  · simpa only [if_neg h, if_neg (mt (hc s).mp h)] using hk s

/-- A blind meaning after a change of the state that shows nothing of what is hidden. -/
theorem Blind.comp {x : Hidden} {k : State → Result} {g : State → State} (hk : Blind x k)
    (hg : ∀ s, hide x (g (hide x s)) = hide x (g s)) : Blind x (fun s => k (g s)) :=
  fun s => hk.hideNext_eq (hg s)

/-! ### What is not hidden -/

section

variable (x : Hidden) (s : State)

@[simp] theorem hide_phase : (hide x s).phase = s.phase := by cases x <;> rfl
@[simp] theorem hide_ready : (hide x s).ready = s.ready := by cases x <;> rfl
@[simp] theorem hide_params : (hide x s).params = s.params := by cases x <;> rfl
@[simp] theorem hide_dq : (hide x s).dq = s.dq := by cases x <;> rfl
@[simp] theorem hide_res : (hide x s).res = s.res := by cases x <;> rfl
@[simp] theorem hide_ofs : (hide x s).ofs = s.ofs := by cases x <;> rfl
@[simp] theorem hide_txb : (hide x s).txb = s.txb := by cases x <;> rfl
@[simp] theorem hide_rxb : (hide x s).rxb = s.rxb := by cases x <;> rfl
@[simp] theorem hide_echoChk : (hide x s).echoChk = s.echoChk := by cases x <;> rfl
@[simp] theorem hide_bus : (hide x s).bus = s.bus := by cases x <;> rfl

/-- The engine's answer to a byte list does not show it (41_pec_engine.md R177). -/
@[simp] theorem pecBytes_hide (l : List Byte) : (hide x s).pecBytes l = s.pecBytes l := by cases x <;> rfl

/-- A read of another CSR does not show it. -/
theorem csrRead_hide {k : BitVec 8} (hk : k ≠ x.csr) : csrRead (hide x s) k = csrRead s k := by
  have hn : k.toNat ≠ x.csr.toNat := fun h => hk (BitVec.eq_of_toNat_eq h)
  unfold csrRead
  cases x with
  | pecr =>
    split
    case h_11 h => exact absurd h hn
    all_goals rfl
  | record =>
    split
    case h_1 h => exact absurd h hn
    all_goals rfl

end

/-! ### The frame operations and the walks -/

/-- ENCODE sends the same bytes, and leaves in PECR what PECR held or a vector of the frame. -/
theorem blind_encode (x : Hidden) (f : Frame) :
    Blind x (fun s => encodeFrame (frameTx s f) (framePecr s s.pecr f) s) :=
  blind_ite (fun s => by cases x <;> exact Iff.rfl) (blind_next fun s => by cases x <;> rfl) fun _ => rfl

/-- The write of a result. -/
theorem blind_deliver (x : Hidden) (v : DWord) (c : Nat) : Blind x (deliver v c) :=
  blind_ite (fun s => by cases x <;> exact Iff.rfl) (blind_next fun s => by cases x <;> rfl) fun _ => rfl

/-- PARSE. -/
theorem blind_parseFrame (x : Hidden) (a n c : Nat) (v : Bool) : Blind x (parseFrame a n c v) := by
  intro s
  simp only [parseFrame, hide_rxb, hide_ofs, hide_echoChk, pecBytes_hide]
  split
  · cases x <;> rfl
  · split
    · cases x <;> rfl
    · split
      · split
        · exact (blind_deliver x _ _).hideNext_eq (by cases x <;> rfl)
        · cases x <;> rfl
      · exact blind_deliver x _ _ s

/-- The frame operations. -/
theorem blind_execFrame (x : Hidden) (f : Frame) : Blind x (execFrame f) := by
  intro s
  rw [execFrame_eq, execFrame_eq]
  cases hp : s.phase with
  | encode =>
    rw [runFrame_encode ((hide_phase x s).trans hp), runFrame_encode hp]
    exact blind_encode x f s
  | parse =>
    rw [runFrame_parse ((hide_phase x s).trans hp), runFrame_parse hp]
    exact blind_parseFrame x _ _ _ _ s
  | idle | transfer => simp only [runFrame, hide_phase, hp]

/-- The walks of EXEC. -/
theorem blind_walk (x : Hidden) (ds : List Descriptor) : Blind x (walk ds) := by
  induction ds with
  | nil => exact blind_next fun s => by cases x <;> rfl
  | cons d ds ih =>
    intro s
    cases hd : decodeFrame d with
    | error e => simp only [walk, hd]
    | ok f =>
      rw [walk_cons_ok hd, walk_cons_ok hd, hide_phase]
      exact hideNext_onNext (blind_execFrame x f s)
        (blind_ite (fun u => by rw [hide_phase]) ih (blind_next fun u => by cases x <;> rfl))

/-! ### EXEC -/

/-- The transfer: XPORT is handed the same bytes, and one transport answers them alike (log entry 3). -/
theorem hide_transfer (x : Hidden) (s : State) : hide x (transfer (hide x s)) = hide x (transfer s) := by
  unfold transfer sentBytes
  rw [hide_bus, hide_txb, hide_ofs]
  split
  · cases x <;> rfl
  · cases x <;> rfl
  · split <;> cases x <;> rfl

/-- The success of EXEC, where the parse walk reached its end. -/
theorem hide_complete (x : Hidden) (s : State) :
    hide x (if (hide x s).phase = .parse then complete (hide x s) else hide x s) =
      hide x (if s.phase = .parse then complete s else s) := by
  rw [hide_phase]
  split <;> cases x <;> rfl

/-- What follows the transfer. -/
theorem blind_finishExec (x : Hidden) (ds : List Descriptor) : Blind x (finishExec ds) :=
  blind_ite (fun s => by rw [hide_phase]) ((blind_walk x ds).onNext (blind_next (hide_complete x)))
    (blind_next fun s => by cases x <;> rfl)

/-- EXEC. -/
theorem blind_execExec (x : Hidden) : Blind x execExec := by
  refine blind_ite (fun s => by rw [hide_ready]) (fun s => ?_) (blind_next fun s => by cases x <;> rfl)
  rw [hide_dq]
  exact hideNext_onNext ((blind_walk x s.dq).hideNext_eq (by cases x <;> rfl))
    ((blind_finishExec x s.dq).comp (hide_transfer x))

/-! ### The other commands -/

theorem hide_readCsr (x : Hidden) {k : BitVec 8} (hk : k ≠ x.csr) (s : State) :
    hide x (readCsr k (hide x s)) = hide x (readCsr k s) := by
  unfold readCsr
  rw [csrRead_hide x s hk]
  split <;> cases x <;> rfl

theorem hide_csrWrite (x : Hidden) (k : BitVec 8) (v : Word) (s : State) :
    hide x (respond .empty (csrWrite (hide x s) k v)) = hide x (respond .empty (csrWrite s k v)) := by
  unfold csrWrite
  split <;> cases x <;> rfl

theorem hide_writeCsr (x : Hidden) (k : BitVec 8) (v : Word) (s : State) :
    hide x (writeCsr k v (hide x s)) = hide x (writeCsr k v s) := by
  unfold writeCsr
  rw [hide_ready]
  split
  · cases x <;> rfl
  · split
    · cases x <;> rfl
    · split
      · cases x <;> rfl
      · exact hide_csrWrite x k v s

theorem hide_validateBus (x : Hidden) (b m : Word) (s : State) :
    hide x (validateBus b m (hide x s)) = hide x (validateBus b m s) := by
  unfold validateBus
  rw [hide_params]
  split_ifs <;> cases x <;> rfl

theorem hide_initBus (x : Hidden) (b m w : Word) (s : State) :
    hide x (initBus b m w (hide x s)) = hide x (initBus b m w s) := by
  have hw : hide x (warnExtraFlags w (hide x s)) = hide x (warnExtraFlags w s) := by cases x <;> rfl
  unfold initBus
  rw [hide_ready]
  split
  · cases x <;> rfl
  · split
    · cases x <;> rfl
    · rw [← hide_validateBus, hw, hide_validateBus]

theorem hide_pushDescriptor (x : Hidden) (d : Descriptor) (s : State) :
    hide x (pushDescriptor d (hide x s)) = hide x (pushDescriptor d s) := by
  unfold pushDescriptor
  rw [hide_params, hide_dq]
  split
  · cases x <;> rfl
  · split <;> cases x <;> rfl

theorem hide_readResult (x : Hidden) (i : BitVec 16) (s : State) :
    hide x (readResult i (hide x s)) = hide x (readResult i s) := by
  unfold readResult
  rw [hide_res]
  split <;> cases x <;> rfl

/-- The comparison of PEC.CHK (41_pec_engine.md R179). -/
theorem blind_execPecChk (x : Hidden) (l : List Byte) (q0 q1 : Byte) : Blind x (execPecChk l q0 q1) := by
  intro s
  have h0 : pecHigh ((hide x s).pecVector l) = pecHigh (s.pecVector l) := by cases x <;> rfl
  have h1 : pecLow ((hide x s).pecVector l) = pecLow (s.pecVector l) := by cases x <;> rfl
  unfold execPecChk
  rw [h0, h1]
  split <;> cases x <;> rfl

/-- Every instruction but the read of the CSR that shows it is blind to what is hidden. -/
theorem blind_exec (x : Hidden) (i : Instr) (hi : i ≠ .csrRd x.csr) : Blind x (exec i) := by
  rcases isCommand_or_frame i with hc | ⟨f, rfl⟩
  · cases i with
    | rdA | wrA | rdB | wrB | rdC | wrC => cases hc
    | reset | errClr | dqClr | pecCalc => exact blind_next fun s => by cases x <;> rfl
    | csrRd k => exact blind_next (hide_readCsr x fun h => hi (congrArg _ h))
    | csrWr k v => exact blind_next (hide_writeCsr x k v)
    | init b m w => exact blind_next (hide_initBus x b m w)
    | dqPush dw0 dw1 => exact blind_next (hide_pushDescriptor x ⟨dw0, dw1⟩)
    | exec => exact blind_execExec x
    | resRd k => exact blind_next (hide_readResult x k)
    | pecChk l q0 q1 => exact blind_execPecChk x l q0 q1
  · intro s
    rw [exec_frame_instr, exec_frame_instr]
    exact blind_execFrame x f s

/-! ### The two statements -/

/-- From two states that differ in what is hidden a blind instruction goes on to two such states. -/
theorem exec_next_of_hide_eq {x : Hidden} {i : Instr} (hi : i ≠ .csrRd x.csr) {s s' t : State}
    (hs : hide x s' = hide x s) (h : exec i s = .next t) :
    ∃ t', exec i s' = .next t' ∧ hide x t' = hide x t := by
  have hb := (blind_exec x i hi).hideNext_eq hs
  rw [h, hideNext_next] at hb
  exact hideNext_eq_next.mp hb

/-- Settles O19: what is hidden is PECR. -/
theorem oldPecrInfluencesNothing : Obligations.OldPecrInfluencesNothing := by
  intro i s t p hi h
  obtain ⟨t', ht', hh⟩ := exec_next_of_hide_eq (x := .pecr) (s := s) (s' := { s with pecr := p }) hi rfl h
  exact ⟨t', ht', congrArg (fun u : State => { u with pecr := t.pecr }) hh⟩

/-- Settles O60: what is hidden is ERR, ESUB and WARN. -/
theorem errorRecordInfluencesNothing : Obligations.ErrorRecordInfluencesNothing := by
  intro i s t e u w hi h
  obtain ⟨t', ht', hh⟩ := exec_next_of_hide_eq (x := .record) (s := s)
    (s' := { s with err := e, esub := u, warn := w }) hi rfl h
  exact ⟨t', ht', congrArg
    (fun v : State => { v with err := t.err, esub := t.esub, warn := t.warn }) hh⟩

end Sys2Proof.Proofs
end

section
/-! PROOF. The memory family, the transfer that XPORT never answers (20_memory.md R67; 70_reset_and_hazards.md
R325): EXEC leads into it, and no number of steps leads out of it. -/

namespace Sys2Proof.Proofs

open Sys2Proof.Machine Sys2Proof.Laws

/-- In a transfer that is not answered, a hardware reset lands exactly where one is among the inputs. -/
theorem resetLands_eq_none_of_transfer {s : State} (hp : s.phase = .transfer) :
    s.resetLands = none ↔ .hardwareReset ∉ s.host.pending := by
  rw [State.resetLands, hp]
  exact withoutReset_eq_none

/-- A state that one step leaves as it is stays so for any number of steps. -/
theorem run_of_step_eq_self {M : Host.Core} {s : M.State} (h : M.step s = .next s) (k : Nat) :
    M.run k s = .next s := by
  induction k with
  | zero => rfl
  | succ k ih =>
    rw [Host.Core.run, h]
    exact ih

/-- Settles O11: one step leaves the state as it is (`step_of_transfer`), hence any number does. -/
theorem unansweredTransferHoldsForEver : Obligations.UnansweredTransferHoldsForEver := by
  intro s k hp hr
  have hs : step s = .next s := step_of_transfer ((resetLands_eq_none_of_transfer hp).mpr hr) hp
  exact run_of_step_eq_self (M := Sys2Proof.core) hs k

/-- Settles O44, by the state in which EXEC leaves the machine (`execExec_of_never`). -/
theorem execWaitsForAnUnansweredTransfer : Obligations.ExecWaitsForAnUnansweredTransfer :=
  fun _ h hr ha => execExec_of_never h hr ha

end Sys2Proof.Proofs
end

section
/-! PROOF. The encoding family, descriptors (30_encoding.md R100 to R106): DW0 as a number made of its fields, the
decoder's checks as the rules of a legal frame, and the two directions of the codec. -/

namespace Sys2Proof.Proofs

open Sys2Proof.Machine Sys2Proof.Laws

/-! ### Fields of a word as numbers -/

/-- Of two fields side by side the left one stands above the right one. -/
theorem toNat_append_eq {n m : Nat} (x : BitVec n) (y : BitVec m) :
    (x ++ y).toNat = x.toNat * 2 ^ m + y.toNat := by
  rw [BitVec.toNat_append, ← Nat.shiftLeft_add_eq_or_of_lt y.isLt, Nat.shiftLeft_eq]

theorem toNat_extractLsb'_eq {n : Nat} (x : BitVec n) (start len : Nat) :
    (x.extractLsb' start len).toNat = x.toNat / 2 ^ start % 2 ^ len := by
  rw [BitVec.extractLsb'_toNat, Nat.shiftRight_eq_div_pow]

theorem getLsbD_zero_eq_iff {n : Nat} (x : BitVec n) (r : Bool) :
    x.getLsbD 0 = r ↔ x.toNat % 2 = r.toNat := by
  rw [BitVec.getLsbD, Nat.testBit_zero]
  rcases Nat.mod_two_eq_zero_or_one x.toNat with h | h <;> cases r <;> simp [h]

/-- DW0 of a frame as a number (R100). -/
theorem descriptor_dw0_toNat (f : Frame) : f.descriptor.dw0.toNat =
    f.addr.toNat * 256 + f.dlen.toNat * 8 + f.fmt.code.toNat * 2 + f.rd.toNat := by
  simp only [Frame.descriptor, toNat_append_eq, BitVec.toNat_ofNat, BitVec.toNat_ofBool]
  omega

/-- The bits of R106 are clear. -/
theorem reservedSet_eq_false_iff (w : Word) :
    reservedSet w = false ↔ w.toNat / 2 ^ 24 = 0 ∧ w.toNat / 2 ^ 7 % 2 = 0 := by
  have := w.isLt
  simp only [reservedSet, Bool.or_eq_false_iff, bne_eq_false_iff_eq, ← BitVec.toNat_inj,
    toNat_extractLsb'_eq, BitVec.toNat_ofNat]
  omega

/-- A word is the DW0 of a frame where its fields are the frame's and no other bit is set (R100, R106). -/
theorem eq_descriptor_dw0_iff (w : Word) (f : Frame) :
    w = f.descriptor.dw0 ↔ reservedSet w = false ∧ w.getLsbD 0 = f.rd ∧
      w.extractLsb' 1 2 = f.fmt.code ∧ w.extractLsb' 3 4 = f.dlen ∧ w.extractLsb' 8 16 = f.addr := by
  have h0 := f.rd.toNat_lt
  have h1 := f.fmt.code.isLt
  have h2 := f.dlen.isLt
  have h3 := f.addr.isLt
  simp only [reservedSet_eq_false_iff, getLsbD_zero_eq_iff, ← BitVec.toNat_inj, toNat_extractLsb'_eq,
    descriptor_dw0_toNat]
  omega

/-! ### The checks of the decoder -/

/-- FMT is the number of the format (R100). -/
theorem fmtOf_eq_some_iff (c : BitVec 2) (fmt : Fmt) : fmtOf c = some fmt ↔ c = fmt.code := by
  revert c
  cases fmt <;> decide

theorem fmtOf_eq_none_iff (c : BitVec 2) : fmtOf c = none ↔ c = 3#2 := by
  revert c
  decide

theorem dlenIllegal_eq_not_dlenOk (n : BitVec 4) : dlenIllegal n = !dlenOk n := by
  revert n
  decide

theorem addrTooWide_eq_not_addrOk (fmt : Fmt) (a : BitVec 16) : addrTooWide fmt a = !addrOk fmt a := by
  have h := a.isLt
  cases fmt with
  | a | b =>
    rw [Bool.eq_iff_iff]
    simp only [addrTooWide, addrOk, bne_iff_ne, ne_eq, ← BitVec.toNat_inj, toNat_extractLsb'_eq,
      BitVec.toNat_ofNat, Bool.not_eq_true', decide_eq_false_iff_not]
    omega
  | c => rfl

theorem valueTooWide_eq_not_valueOk (n : BitVec 4) (v : DWord) : valueTooWide n v = !valueOk n v := by
  rw [Bool.eq_iff_iff]
  simp only [valueTooWide, valueOk, bne_iff_ne, ne_eq, ← BitVec.toNat_inj, BitVec.toNat_ushiftRight,
    Nat.shiftRight_eq_div_pow, BitVec.toNat_ofNat, Bool.not_eq_true', decide_eq_false_iff_not]
  rw [Nat.zero_mod, Nat.div_eq_zero_iff_lt (Nat.two_pow_pos _)]

/-- The decoder's three range checks are those of a legal frame (R103 to R105). -/
theorem legal_eq_checks (f : Frame) : f.legal =
    (!dlenIllegal f.dlen && !addrTooWide f.fmt f.addr && !(!f.rd && valueTooWide f.dlen f.value)) := by
  rw [Frame.legal, dlenIllegal_eq_not_dlenOk, addrTooWide_eq_not_addrOk, valueTooWide_eq_not_valueOk]
  cases addrOk f.fmt f.addr <;> cases dlenOk f.dlen <;> simp

/-! ### The decoder of descriptors -/

/-- The frame that the fields of a descriptor spell, where FMT is that of `fmt` (R100). -/
def frameOf (d : Descriptor) (fmt : Fmt) : Frame :=
  ⟨fmt, d.dw0.getLsbD 0, d.dw0.extractLsb' 8 16, d.dw0.extractLsb' 3 4, d.dw1⟩

/-- What the decoder answers is the frame of the descriptor's fields, with its checks passed (R201). -/
theorem decodeFrame_eq_ok_iff (d : Descriptor) (f : Frame) :
    decodeFrame d = .ok f ↔ reservedSet d.dw0 = false ∧ d.dw0.extractLsb' 1 2 = f.fmt.code ∧
      frameOf d f.fmt = f ∧ f.legal = true := by
  rw [← fmtOf_eq_some_iff]
  simp only [decodeFrame]
  cases reservedSet d.dw0 with
  | true => simp
  | false =>
    cases fmtOf (d.dw0.extractLsb' 1 2) with
    | none => simp
    | some fmt =>
      have hl := legal_eq_checks (frameOf d fmt)
      simp only [frameOf] at hl ⊢
      -- a check that fails is a factor of `hl` that is false
      split_ifs <;> grind

/-- A descriptor decodes to a frame where it is the stored form of that frame and the frame is legal. -/
theorem decodeFrame_eq_ok_iff_descriptor (d : Descriptor) (f : Frame) :
    decodeFrame d = .ok f ↔ f.descriptor = d ∧ f.legal = true := by
  obtain ⟨w, v⟩ := d
  obtain ⟨fmt, rd, a, n, x⟩ := f
  have hw := eq_descriptor_dw0_iff w ⟨fmt, rd, a, n, x⟩
  have hd : Frame.descriptor ⟨fmt, rd, a, n, x⟩ = ⟨w, v⟩ ↔
      w = (Frame.descriptor ⟨fmt, rd, a, n, x⟩).dw0 ∧ v = x := by
    simp [Frame.descriptor, eq_comm]
  rw [decodeFrame_eq_ok_iff, hd, hw]
  simp only [frameOf, Frame.mk.injEq, true_and]
  tauto

end Sys2Proof.Proofs
end

section
/-! PROOF. The encoding family, the codec (30_encoding.md R100, R107, R108): decode and encode are inverse to each
other, on descriptors by the rules of a legal frame, on messages command by command. -/

namespace Sys2Proof.Proofs

open Sys2Proof.Machine Sys2Proof.Laws

/-! ### Frame operations -/

@[simp] theorem encode_frame_instr (f : Frame) : encode f.instr = .desc f.descriptor := by
  rcases f with ⟨_ | _ | _, _ | _, a, n, v⟩ <;> rfl

@[simp] theorem wellFormed_frame_instr (f : Frame) : f.instr.WellFormed = f.legal := by
  rcases f with ⟨_ | _ | _, _ | _, a, n, v⟩ <;> rfl

/-- A descriptor decodes to the operation of its frame (R101). -/
theorem decode_desc_eq_ok_iff (d : Descriptor) (i : Instr) :
    decode (.desc d) = .ok i ↔ ∃ f, decodeFrame d = .ok f ∧ f.instr = i := by
  simp only [decode]
  cases decodeFrame d <;> simp

/-! ### The command word -/

/-- A command word as a number (R107). -/
theorem commandWord_toNat (o : HostOp) (a : BitVec 8) (b : BitVec 16) :
    (commandWord o a b).toNat = b.toNat * 65536 + a.toNat * 256 + o.code.toNat := by
  simp only [commandWord, toNat_append_eq]
  omega

/-- A word is a command word where its three fields are the command's. -/
theorem eq_commandWord_iff (w : Word) (o : HostOp) (a : BitVec 8) (b : BitVec 16) :
    w = commandWord o a b ↔
      w.extractLsb' 0 8 = o.code ∧ w.extractLsb' 8 8 = a ∧ w.extractLsb' 16 16 = b := by
  have hw := w.isLt
  have ho := o.code.isLt
  have ha := a.isLt
  have hb := b.isLt
  simp only [← BitVec.toNat_inj, toNat_extractLsb'_eq, commandWord_toNat]
  omega

/-- The OP values are listed once each (R108). -/
theorem hostOpOf_eq_some_iff (c : BitVec 8) (o : HostOp) : hostOpOf c = some o ↔ c = o.code := by
  constructor
  · intro h
    rw [hostOpOf] at h
    have hc := List.find?_some (p := fun o : HostOp => o.code == c) h
    exact (beq_iff_eq.mp hc).symm
  · rintro rfl
    cases o <;> rfl

/-- The fields that a command does not use are 0 (R107). -/
def UnusedClear (o : HostOp) (a : BitVec 8) (b : BitVec 16) : Prop :=
  (o.usesArg8 = false → a = 0#8) ∧ (o.usesArg16 = false → b = 0#16)

theorem unusedFieldSet_eq_false_iff (o : HostOp) (w : Word) :
    unusedFieldSet o w = false ↔ UnusedClear o (w.extractLsb' 8 8) (w.extractLsb' 16 16) := by
  rw [UnusedClear, unusedFieldSet]
  cases o.usesArg8 <;> cases o.usesArg16 <;> simp

/-- A message decodes by its operands where its command word is that of a listed command, the fields it does
not use being 0 (R250, R108). -/
theorem decodeMessage_eq_ok_iff (m : Message) (i : Instr) :
    decodeMessage m = .ok i ↔ ∃ o a b, m.cw = commandWord o a b ∧ UnusedClear o a b ∧
      takeOperands o a b m.words m.bytes = .ok i := by
  simp only [eq_commandWord_iff, ← hostOpOf_eq_some_iff, decodeMessage]
  cases hostOpOf (m.cw.extractLsb' 0 8) with
  | none => simp
  | some o =>
    have hu := unusedFieldSet_eq_false_iff o m.cw
    cases h : unusedFieldSet o m.cw <;> simp_all

/-! ### The operands -/

theorem wordOperands_eq_ok_iff (n : Nat) (words : List Word) (bytes : List Byte) (i j : Instr) :
    wordOperands n words bytes i = .ok j ↔ words.length = n ∧ bytes = [] ∧ i = j := by
  unfold wordOperands
  split <;> simp_all

theorem byteOperands_eq_ok_iff (n : Nat) (words : List Word) (bytes : List Byte) (i j : Instr) :
    byteOperands n words bytes i = .ok j ↔ words = [] ∧ bytes.length = n ∧ i = j := by
  unfold byteOperands
  split <;> simp_all

/-- PEC.CHK: the bytes of the list and then the two of the field (R108). -/
theorem take_append_last_two {l : List Byte} {n : Nat} (h : l.length = n + 2) :
    l.take n ++ [l.getD n 0#8, l.getD (n + 1) 0#8] = l := by
  have hd : l.drop n = [l.getD n 0#8, l.getD (n + 1) 0#8] := by
    rw [List.drop_eq_getElem_cons (by omega), List.drop_eq_getElem_cons (by omega),
      List.drop_eq_nil_of_le (by omega)]
    simp [h]
  rw [← hd, List.take_append_drop]

/-- The operands of a command are those that the instruction they make is encoded with. -/
theorem encode_of_takeOperands {o : HostOp} {a : BitVec 8} {b : BitVec 16} {words : List Word}
    {bytes : List Byte} {i : Instr} (hu : UnusedClear o a b)
    (h : takeOperands o a b words bytes = .ok i) :
    encode i = .host ⟨commandWord o a b, words, bytes⟩ ∧ i.WellFormed = true := by
  obtain ⟨ha, hb⟩ := hu
  cases o with
  | reset | errClr | dqClr | exec =>
    obtain ⟨hw, rfl, rfl⟩ := (wordOperands_eq_ok_iff _ _ _ _ _).mp h
    obtain rfl := List.eq_nil_of_length_eq_zero hw
    rw [ha rfl, hb rfl]
    exact ⟨rfl, rfl⟩
  | csrRd =>
    obtain ⟨hw, rfl, rfl⟩ := (wordOperands_eq_ok_iff _ _ _ _ _).mp h
    obtain rfl := List.eq_nil_of_length_eq_zero hw
    rw [hb rfl]
    exact ⟨rfl, rfl⟩
  | csrWr =>
    obtain ⟨hw, rfl, rfl⟩ := (wordOperands_eq_ok_iff _ _ _ _ _).mp h
    obtain ⟨x, rfl⟩ := List.length_eq_one_iff.mp hw
    rw [hb rfl]
    exact ⟨rfl, rfl⟩
  | init =>
    obtain ⟨hw, rfl, rfl⟩ := (wordOperands_eq_ok_iff _ _ _ _ _).mp h
    obtain ⟨x, y, z, rfl⟩ := List.length_eq_three.mp hw
    rw [ha rfl, hb rfl]
    exact ⟨rfl, rfl⟩
  | dqPush =>
    obtain ⟨hw, rfl, rfl⟩ := (wordOperands_eq_ok_iff _ _ _ _ _).mp h
    obtain ⟨x, y, z, rfl⟩ := List.length_eq_three.mp hw
    rw [ha rfl, hb rfl]
    refine ⟨?_, rfl⟩
    show wordMessage .dqPush 0#8 0#16 [x, (z ++ y).extractLsb' 0 32, (z ++ y).extractLsb' 32 32] = _
    rw [BitVec.extractLsb'_append_eq_left, BitVec.extractLsb'_append_eq_right]
    rfl
  | resRd =>
    obtain ⟨hw, rfl, rfl⟩ := (wordOperands_eq_ok_iff _ _ _ _ _).mp h
    obtain rfl := List.eq_nil_of_length_eq_zero hw
    rw [ha rfl]
    exact ⟨rfl, rfl⟩
  | pecCalc =>
    obtain ⟨rfl, hl, rfl⟩ := (byteOperands_eq_ok_iff _ _ _ _ _).mp h
    rw [ha rfl]
    simp [encode, byteMessage, Instr.WellFormed, hl, b.isLt]
  | pecChk =>
    obtain ⟨rfl, hl, rfl⟩ := (byteOperands_eq_ok_iff _ _ _ _ _).mp h
    have ht : (bytes.take b.toNat).length = b.toNat := by rw [List.length_take]; omega
    rw [ha rfl]
    simp only [encode, byteMessage, Instr.WellFormed, ht, take_append_last_two hl, BitVec.ofNat_toNat,
      BitVec.setWidth_eq, b.isLt, decide_true, and_self]

/-- A message of a command word and the command's operands decodes. -/
theorem decode_of_takeOperands {o : HostOp} {a : BitVec 8} {b : BitVec 16} {words : List Word}
    {bytes : List Byte} {i : Instr} (hu : UnusedClear o a b)
    (h : takeOperands o a b words bytes = .ok i) :
    decode (.host ⟨commandWord o a b, words, bytes⟩) = .ok i :=
  (decodeMessage_eq_ok_iff _ _).mpr ⟨o, a, b, rfl, hu, h⟩

/-- LEN holds the length of a list that has an encoding (R108). -/
theorem ofNat_length_toNat {l : List Byte} (h : decide (l.length < 65536) = true) :
    (BitVec.ofNat 16 l.length).toNat = l.length := by
  rw [BitVec.toNat_ofNat]
  exact Nat.mod_eq_of_lt (of_decide_eq_true h)

/-- A host command decodes from the message it is encoded as. -/
theorem decode_encode_of_command {i : Instr} (hi : isCommand i = true) (hw : i.WellFormed = true) :
    decode (encode i) = .ok i := by
  cases i with
  | rdA | wrA | rdB | wrB | rdC | wrC => cases hi
  | reset => exact decode_of_takeOperands (o := .reset) ⟨fun _ => rfl, fun _ => rfl⟩ rfl
  | csrRd k => exact decode_of_takeOperands (o := .csrRd) ⟨nofun, fun _ => rfl⟩ rfl
  | csrWr k v => exact decode_of_takeOperands (o := .csrWr) ⟨nofun, fun _ => rfl⟩ rfl
  | init b m x => exact decode_of_takeOperands (o := .init) ⟨fun _ => rfl, fun _ => rfl⟩ rfl
  | errClr => exact decode_of_takeOperands (o := .errClr) ⟨fun _ => rfl, fun _ => rfl⟩ rfl
  | dqPush w v =>
    refine decode_of_takeOperands (o := .dqPush) ⟨fun _ => rfl, fun _ => rfl⟩ ?_
    exact (wordOperands_eq_ok_iff _ _ _ _ _).mpr
      ⟨rfl, rfl, congrArg (Instr.dqPush w) (BitVec.extractLsb'_append_extractLsb')⟩
  | dqClr => exact decode_of_takeOperands (o := .dqClr) ⟨fun _ => rfl, fun _ => rfl⟩ rfl
  | exec => exact decode_of_takeOperands (o := .exec) ⟨fun _ => rfl, fun _ => rfl⟩ rfl
  | resRd k => exact decode_of_takeOperands (o := .resRd) ⟨fun _ => rfl, nofun⟩ rfl
  | pecCalc l =>
    refine decode_of_takeOperands (o := .pecCalc) ⟨fun _ => rfl, nofun⟩ ?_
    exact (byteOperands_eq_ok_iff _ _ _ _ _).mpr ⟨rfl, (ofNat_length_toNat hw).symm, rfl⟩
  | pecChk l q0 q1 =>
    refine decode_of_takeOperands (o := .pecChk) ⟨fun _ => rfl, nofun⟩ ?_
    refine (byteOperands_eq_ok_iff _ _ _ _ _).mpr ⟨rfl, ?_, ?_⟩ <;> simp [ofNat_length_toNat hw]

/-! ### The statements -/

/-- Settles O6: a frame operation by the legality of its frame, a host command by its operands. -/
theorem decodeOfEncodeIsIdentity : Obligations.DecodeOfEncodeIsIdentity := by
  intro i hw
  rcases isCommand_or_frame i with hi | ⟨f, rfl⟩
  · exact decode_encode_of_command hi hw
  · rw [wellFormed_frame_instr] at hw
    rw [encode_frame_instr, decode_desc_eq_ok_iff]
    exact ⟨f, (decodeFrame_eq_ok_iff_descriptor _ _).mpr ⟨rfl, hw⟩, rfl⟩

/-- Settles O7: a descriptor is the stored form of the frame it decodes to, and a message is its command word
and operands. -/
theorem encodeOfDecodeIsIdentity : Obligations.EncodeOfDecodeIsIdentity := by
  intro c i h
  cases c with
  | desc d =>
    obtain ⟨f, hf, rfl⟩ := (decode_desc_eq_ok_iff d i).mp h
    obtain ⟨rfl, hl⟩ := (decodeFrame_eq_ok_iff_descriptor d f).mp hf
    exact ⟨encode_frame_instr f, (wellFormed_frame_instr f).trans hl⟩
  | host m =>
    obtain ⟨cw, words, bytes⟩ := m
    obtain ⟨o, a, b, rfl, hu, ho⟩ := (decodeMessage_eq_ok_iff _ i).mp h
    exact encode_of_takeOperands hu ho

/-- Settles O5: the decoder evaluates on each of the nine. -/
theorem wordsOfTheSpecDecode : Obligations.WordsOfTheSpecDecode :=
  ⟨rfl, rfl, rfl, rfl, rfl, rfl, rfl, rfl, rfl⟩

end Sys2Proof.Proofs
end

section
/-! PROOF. The encoding family, which words are legal: the descriptors of 30_encoding.md R103 to R106, and the
messages that raise ILLEGAL CMD (R110). -/

namespace Sys2Proof.Proofs

open Sys2Proof.Machine Sys2Proof.Laws

/-! ### Legal descriptors -/

/-- A descriptor is legal where the reserved bits are clear, FMT is a format, and the frame of its fields is
legal (R102, R106). -/
theorem descriptorLegal_iff (d : Descriptor) :
    descriptorLegal d = true ↔ reservedSet d.dw0 = false ∧
      ∃ fmt : Fmt, d.dw0.extractLsb' 1 2 = fmt.code ∧ (frameOf d fmt).legal = true := by
  have hd : descriptorLegal d = true ↔ ∃ f, decodeFrame d = .ok f := by
    rw [descriptorLegal]
    cases decodeFrame d <;> simp
  rw [hd]
  simp only [decodeFrame_eq_ok_iff]
  constructor
  · rintro ⟨f, hr, hf, he, hl⟩
    exact ⟨hr, f.fmt, hf, he.symm ▸ hl⟩
  · rintro ⟨hr, fmt, hf, hl⟩
    exact ⟨frameOf d fmt, hr, hf, rfl, hl⟩

/-- The numbers of the formats are those below 3 (R100, R106). -/
theorem exists_fmt_code_iff {n : Nat} (h : n < 4) : (∃ fmt : Fmt, n = fmt.code.toNat) ↔ n ≠ 3 := by
  constructor
  · rintro ⟨fmt, rfl⟩
    cases fmt <;> decide
  · intro h3
    obtain rfl | rfl | rfl : n = 0 ∨ n = 1 ∨ n = 2 := by omega
    exacts [⟨.a, rfl⟩, ⟨.b, rfl⟩, ⟨.c, rfl⟩]

/-- The address rule by the number of the format (R103). -/
theorem addrOk_iff (fmt : Fmt) (a : BitVec 16) : addrOk fmt a = true ↔
    (fmt.code.toNat = 0 → a.toNat < 64) ∧ (fmt.code.toNat = 1 → a.toNat < 256) := by
  cases fmt <;> simp [addrOk, Fmt.code]

/-- Legality of the frame that a descriptor's fields spell, as arithmetic (R103 to R105). -/
theorem frameOf_legal_iff (d : Descriptor) (fmt : Fmt) : (frameOf d fmt).legal = true ↔
    1 ≤ d.dw0.toNat / 2 ^ 3 % 16 ∧ d.dw0.toNat / 2 ^ 3 % 16 ≤ 8 ∧
    (fmt.code.toNat = 0 → d.dw0.toNat / 2 ^ 8 % 2 ^ 16 < 64) ∧
    (fmt.code.toNat = 1 → d.dw0.toNat / 2 ^ 8 % 2 ^ 16 < 256) ∧
    (d.dw0.toNat % 2 = 0 → d.dw1.toNat < 2 ^ (8 * (d.dw0.toNat / 2 ^ 3 % 16))) := by
  have hrd : d.dw0.getLsbD 0 = true ↔ ¬ d.dw0.toNat % 2 = 0 := by
    rw [getLsbD_zero_eq_iff]
    exact Nat.mod_two_ne_zero.symm
  simp only [Frame.legal, frameOf, addrOk_iff, dlenOk, valueOk, toNat_extractLsb'_eq, Bool.and_eq_true,
    Bool.or_eq_true, decide_eq_true_eq, hrd, ← imp_iff_not_or]
  tauto

/-- Settles O8, by the format that FMT names. -/
theorem legalDescriptorsAreThoseOfTheRules : Obligations.LegalDescriptorsAreThoseOfTheRules := by
  intro d
  have hf (fmt : Fmt) : d.dw0.extractLsb' 1 2 = fmt.code ↔ d.dw0.toNat / 2 % 4 = fmt.code.toNat := by
    rw [← BitVec.toNat_inj, toNat_extractLsb'_eq]
    rfl
  have h3 := exists_fmt_code_iff (Nat.mod_lt (d.dw0.toNat / 2) (show 0 < 4 by omega))
  simp only [descriptorLegal_iff, reservedSet_eq_false_iff, hf, frameOf_legal_iff, ← h3]
  constructor
  · rintro ⟨⟨h24, h7⟩, fmt, hfmt, hl⟩
    exact ⟨h24, h7, ⟨fmt, hfmt⟩, hfmt ▸ hl⟩
  · rintro ⟨h24, h7, ⟨fmt, hfmt⟩, hl⟩
    exact ⟨⟨h24, h7⟩, fmt, hfmt, hfmt ▸ hl⟩

/-! ### Illegal messages -/

/-- The state after a message that raises ILLEGAL CMD is taken from the port (R110). -/
theorem raise_illegalCmd_takeInput {s : State} {i : HostInput} {rest : List HostInput}
    (hq : s.host.pending = i :: rest) : raise .illegalCmd (takeInput s) = { s with
      err := 5#4, esub := 1#4
      host := { pending := rest, response := some { err := 5#4, esub := 1#4, payload := .empty } } } := by
  simp only [raise, takeInput, hq]
  rfl

/-- Which of its fields a command uses, by its OP (R108). -/
theorem usesArg8_iff (o : HostOp) : o.usesArg8 = true ↔ o.code.toNat ∈ [0x02, 0x03] := by
  cases o <;> decide

theorem usesArg16_iff (o : HostOp) : o.usesArg16 = true ↔ o.code.toNat ∈ [0x13, 0x20, 0x21] := by
  cases o <;> decide

/-- The OP values that are listed (R108). -/
theorem code_mem_listed (o : HostOp) :
    o.code.toNat ∈ [0x01, 0x02, 0x03, 0x04, 0x05, 0x10, 0x11, 0x12, 0x13, 0x20, 0x21] := by
  cases o <;> decide

/-- A nonzero field that its command does not use, as arithmetic on the command word (R107, R110). -/
theorem unusedFieldSet_iff (o : HostOp) (w : Word) : unusedFieldSet o w = true ↔
    (o.code.toNat ∉ [0x02, 0x03] ∧ w.toNat / 256 % 256 ≠ 0) ∨
    (o.code.toNat ∉ [0x13, 0x20, 0x21] ∧ w.toNat / 65536 ≠ 0) := by
  have h8 : w.extractLsb' 8 8 ≠ 0#8 ↔ w.toNat / 256 % 256 ≠ 0 := by
    rw [ne_eq, ← BitVec.toNat_inj, toNat_extractLsb'_eq]
    rfl
  have h16 : w.extractLsb' 16 16 ≠ 0#16 ↔ w.toNat / 65536 ≠ 0 := by
    have hw := w.isLt
    rw [ne_eq, ← BitVec.toNat_inj, toNat_extractLsb'_eq, BitVec.toNat_ofNat]
    omega
  simp only [← usesArg8_iff, ← usesArg16_iff, ← h8, ← h16, unusedFieldSet, Bool.or_eq_true, Bool.and_eq_true,
    Bool.not_eq_true', bne_iff_ne, Bool.not_eq_true]

/-- A message whose OP is not listed, or whose command does not use a field that is set, is no instruction,
and raises ILLEGAL CMD (R110, R250). -/
theorem runCode_of_illegal {m : Message}
    (h : ∀ o : HostOp, m.cw.toNat % 256 = o.code.toNat → unusedFieldSet o m.cw = true) (s : State) :
    runCode (.host m) s = .next (raise .illegalCmd s) := by
  rw [runCode, decode_host, decodeMessage]
  cases ho : hostOpOf (m.cw.extractLsb' 0 8) with
  | none => rfl
  | some o =>
    have hc := congrArg BitVec.toNat ((hostOpOf_eq_some_iff _ o).mp ho)
    rw [toNat_extractLsb'_eq, pow_zero, Nat.div_one] at hc
    simp only [h o hc, if_true]
    rfl

/-- A reserved bit of BUSCFG as arithmetic (R109). -/
theorem buscfgReservedSet_iff (b : Word) :
    buscfgReservedSet b = true ↔ b.toNat / 65536 ≠ 0 ∨ b.toNat / 8 % 32 ≠ 0 := by
  have hb := b.isLt
  simp only [buscfgReservedSet, Bool.or_eq_true, bne_iff_ne, ne_eq, ← BitVec.toNat_inj, toNat_extractLsb'_eq,
    BitVec.toNat_ofNat]
  omega

/-- INIT checks the reserved bits before anything else (R110; 60_exceptions.md R281). -/
theorem exec_init_of_reserved {b : Word} (h : buscfgReservedSet b = true) (x y : Word) (s : State) :
    exec (.init b x y) s = .next (raise .illegalCmd s) :=
  congrArg Host.Outcome.next (if_pos h)

/-- Settles O9: the first three causes are errors of the decoder, the fourth is one of INIT. -/
theorem illegalMessagesRaiseIllegalCmd : Obligations.IllegalMessagesRaiseIllegalCmd := by
  intro s m rest hp hq h
  rw [step_of_command hp hq, ← raise_illegalCmd_takeInput hq]
  obtain hop | h8 | h16 | ⟨hcw, hbytes, b, x, y, hwords, hb⟩ := h
  · exact runCode_of_illegal (fun o ho => absurd (ho ▸ code_mem_listed o) hop) _
  · exact runCode_of_illegal (fun o ho => (unusedFieldSet_iff o m.cw).mpr (.inl (ho ▸ h8))) _
  · exact runCode_of_illegal (fun o ho => (unusedFieldSet_iff o m.cw).mpr (.inr (ho ▸ h16))) _
  · obtain ⟨cw, words, bytes⟩ := m
    obtain rfl : cw = commandWord .init 0#8 0#16 := BitVec.eq_of_toNat_eq hcw
    subst hbytes hwords
    have hd : decode (encode (.init b x y)) = .ok (.init b x y) := decode_encode_of_command rfl rfl
    rw [runCode, show decode (.host _) = _ from hd]
    exact exec_init_of_reserved ((buscfgReservedSet_iff b).mpr hb) x y (takeInput s)

end Sys2Proof.Proofs
end

section
/-! PROOF. The encoding family, frames: what ENCODE writes in each format (30_encoding.md R92 to R97, 40_frame.md R130
to R140), and the pseudo-operations of one frame (30_encoding.md R116). -/

namespace Sys2Proof.Proofs

open Sys2Proof.Machine Sys2Proof.Laws

/-! ### ENCODE -/

/-- Settles O30: a frame operation is `runFrame`, which has a meaning in the walks alone. -/
theorem frameOutsideExecIsRefused : Obligations.FrameOutsideExecIsRefused := by
  intro s f hp
  rw [exec_frame_instr, execFrame_eq]
  rcases hp with hp | hp <;> simp only [runFrame, hp]

/-- In the encode walk a frame whose bytes fit TXB is encoded as its bytes, with the PECR it leaves. -/
theorem encodesAs_exec_frame {s : State} (hp : s.phase = .encode) (f : Frame)
    (hb : s.ofs.toNat + frameCount f ≤ bufmax s.params) :
    EncodesAs (exec f.instr s) s (frameTx s f) (framePecr s s.pecr f) := by
  rw [← frameTx_length s f] at hb
  rw [exec_frame_instr, execFrame_eq, runFrame_encode hp, encodeFrame_fits _ hb]
  exact ⟨_, rfl, rfl, fun a => byte_memWrite _ _ _ _⟩

/-- Settles O22: the bytes of a format A frame have no tail. -/
theorem formatAEncodes : Obligations.FormatAEncodes := by
  intro s a n v hp hb
  have hrd := encodesAs_exec_frame hp ⟨.a, true, a, n, v⟩ hb
  have hwr := encodesAs_exec_frame hp ⟨.a, false, a, n, v⟩ hb
  rw [frameTx, frameTail, List.append_nil] at hrd hwr
  exact ⟨hrd, hwr⟩

/-- Settles O23: the bytes of a format B frame have no tail. -/
theorem formatBEncodes : Obligations.FormatBEncodes := by
  intro s a n v hp hb
  have hrd := encodesAs_exec_frame hp ⟨.b, true, a, n, v⟩ hb
  have hwr := encodesAs_exec_frame hp ⟨.b, false, a, n, v⟩ hb
  rw [frameTx, frameTail, List.append_nil] at hrd hwr
  exact ⟨hrd, hwr⟩

/-- A format C frame has 6 bytes besides its data (30_encoding.md R113). -/
theorem frameCount_c {f : Frame} (h : f.fmt = .c) : frameCount f = 6 + f.dlen.toNat := by
  simp only [frameCount, h, hlen, tlen]
  omega

/-- Settles O24. -/
theorem formatCEncodes : Obligations.FormatCEncodes := by
  intro s a n v hp hb
  exact ⟨encodesAs_exec_frame hp ⟨.c, true, a, n, v⟩ (by rwa [frameCount_c rfl]),
    encodesAs_exec_frame hp ⟨.c, false, a, n, v⟩ (by rwa [frameCount_c rfl])⟩

/-! ### One EXEC, one transfer -/

/-- On a validated bus EXEC hands XPORT the bytes of the queue, once, whatever it answers (42_batcher.md R208). -/
theorem bus_of_execExec {s t : State} (h : s.Inv) (hr : s.ready = true) (ht : execExec s = .next t) :
    t.bus = s.bus.afterTransfer (queueTx s) := by
  cases ha : s.bus.answer (queueTx s) with
  | never =>
    cases (execExec_of_never h hr ha).symm.trans ht
    rfl
  | ioerror =>
    cases (execExec_of_ioerror h hr ha).symm.trans ht
    rfl
  | ok rx =>
    by_cases hl : rx.length = (queueTx s).length
    · cases hp : parseQueue s (queueFrames s) rx with
      | ok vs =>
        cases (execExec_of_parsed h hr ha hl hp).2.symm.trans ht
        rfl
      | error p =>
        cases (execExec_of_parse_error h hr ha hl hp).2.symm.trans ht
        rfl
    · cases (execExec_of_length_ne h hr ha hl).symm.trans ht
      rfl

/-! ### The pseudo-operations -/

theorem runSequence_of_success {i : Instr} {s t : State} (h : exec i s = .next t) (ht : succeeded t = true)
    (l : List Instr) : runSequence (i :: l) s = runSequence l t := by
  rw [runSequence, h, onNext_next, if_pos ht]

/-- RES.RD as the last command leaves the port to XPORT as it is, its refusal included. -/
theorem runSequence_resRd (i : BitVec 16) (s : State) :
    ∃ t, runSequence [.resRd i] s = .next t ∧ t.bus = s.bus := by
  refine ⟨readResult i s, ?_, ?_⟩
  · show (if succeeded (readResult i s) then _ else _) = _
    exact ite_self _
  · rcases readResult_cases i s with ⟨v, h⟩ | h <;> rw [h] <;> rfl

/-- The queue of one legal frame. -/
def withFrame (f : Frame) (s : State) : State := respond .empty { s with dq := [f.descriptor] }

theorem queueTx_withFrame {f : Frame} (hl : f.legal = true) (s : State) :
    queueTx (withFrame f s) = frameTx s f := by
  have hd := (decodeFrame_eq_ok_iff_descriptor f.descriptor f).mpr ⟨rfl, hl⟩
  have hq : queueFrames (withFrame f s) = [f] := by
    simp [queueFrames, withFrame, hd]
  rw [queueTx, hq, List.flatMap_singleton]
  rfl

/-- DQ.PUSH of a legal frame onto an empty queue: there is room, as QDEPTH is at least 1. -/
theorem exec_pushOp_of_empty {f : Frame} (hl : f.legal = true) {s : State} (h : s.Inv) (hq : s.dq = []) :
    exec (pushOp f) s = .next (withFrame f s) := by
  have hd := (decodeFrame_eq_ok_iff_descriptor f.descriptor f).mpr ⟨rfl, hl⟩
  have hroom : ¬ s.params.qdepth ≤ s.dq.length := by
    have := h.qdepthRange.1
    simp only [hq, List.length_nil]
    omega
  refine congrArg Host.Outcome.next ?_
  show pushDescriptor f.descriptor s = _
  rw [pushDescriptor, hd]
  dsimp only
  rw [if_neg hroom, hq]
  rfl

/-- The sequence of R116 for a legal frame makes one transfer, of that frame's bytes. -/
theorem runSequence_of_frame {f : Frame} (hl : f.legal = true) {s : State} (h : s.Inv) (hr : s.ready = true) :
    ∃ t, runSequence [.dqClr, pushOp f, .exec, .resRd 0#16] s = .next t ∧
      t.bus = s.bus.afterTransfer (frameTx s f) := by
  have hclr : (respond .empty { s with dq := [] }).Inv := Inv_respond (Inv_queueCleared h) _
  have hpush := exec_pushOp_of_empty hl hclr rfl
  have hinv : (withFrame f (respond .empty { s with dq := [] })).Inv := Inv_exec_command rfl hclr hpush
  obtain ⟨t, ht⟩ := execExec_goes_on hinv
  have hbus : t.bus = s.bus.afterTransfer (frameTx s f) := by
    rw [bus_of_execExec hinv hr ht, queueTx_withFrame hl]
    rfl
  rw [runSequence_of_success (t := respond .empty { s with dq := [] }) rfl rfl,
    runSequence_of_success hpush rfl, runSequence, show exec .exec _ = _ from ht, onNext_next]
  split
  · obtain ⟨u, hu, hb⟩ := runSequence_resRd 0#16 t
    exact ⟨u, hu, hb.trans hbus⟩
  · exact ⟨t, rfl, hbus⟩

/-- Settles O47: READ.f and WRITE.f are that sequence; a read's VALUE is 0 (R115). -/
theorem pseudoOperationsMakeOneTransfer : Obligations.PseudoOperationsMakeOneTransfer := by
  intro s f h hr hl hv
  have hs := runSequence_of_frame hl h hr
  obtain ⟨fmt, rd, a, n, v⟩ := f
  cases rd with
  | true =>
    obtain rfl : v = 0#64 := hv rfl
    exact hs
  | false => exact hs

end Sys2Proof.Proofs
end

section
/-! PROOF. The frame family, numbers: the digits of a number and the number that digits spell are inverse, and
the machine's bytes_be and be are these two in 64 bits (40_frame.md R139, R144). -/

namespace Sys2Proof.Proofs

open Sys2Proof.Machine Sys2Proof.Laws

/-- One digit more is the last one: the others are the digits of the quotient by 256. -/
theorem digitsOf_succ (v n : Nat) : digitsOf v (n + 1) = digitsOf (v / 256) n ++ [BitVec.ofNat 8 v] := by
  have hk : ∀ k ∈ List.range n, v / 256 ^ (n + 1 - 1 - k) = v / 256 / 256 ^ (n - 1 - k) := by
    intro k hk
    have := List.mem_range.mp hk
    rw [Nat.div_div_eq_div_mul, ← pow_succ', show n + 1 - 1 - k = n - 1 - k + 1 by omega]
  rw [digitsOf, List.range_succ, List.map_append, List.map_singleton, digitsOf,
    List.map_congr_left fun k h => congrArg (BitVec.ofNat 8) (hk k h)]
  simp

theorem getElem?_digitsOf {v n k : Nat} (h : k < n) :
    (digitsOf v n)[k]? = some (BitVec.ofNat 8 (v / 2 ^ (8 * (n - 1 - k)))) := by
  simp [digitsOf, h, pow_mul]

/-- The digits of a number spell it, modulo what they can hold. -/
theorem valueOf_digitsOf_mod (v n : Nat) : valueOf (digitsOf v n) = v % 256 ^ n := by
  induction n generalizing v with
  | zero => simp [digitsOf, valueOf, Nat.mod_one]
  | succ n ih =>
    rw [digitsOf_succ, valueOf_append, ih, BitVec.toNat_ofNat, pow_succ' 256 n,
      Nat.mod_mul (x := v) (a := 256)]
    omega

theorem valueOf_digitsOf {v n : Nat} (h : v < 2 ^ (8 * n)) : valueOf (digitsOf v n) = v := by
  rw [pow_mul] at h
  rw [valueOf_digitsOf_mod]
  exact Nat.mod_eq_of_lt h

/-- The bytes that spell a number are its digits. -/
theorem digitsOf_valueOf (l : List Byte) : digitsOf (valueOf l) l.length = l := by
  induction l using List.reverseRecOn with
  | nil => rfl
  | append_singleton l b ih =>
    have hb := b.isLt
    have hq : (valueOf l * 256 + b.toNat) / 256 = valueOf l := by omega
    have hr : BitVec.ofNat 8 (valueOf l * 256 + b.toNat) = b := by
      apply BitVec.eq_of_toNat_eq
      rw [BitVec.toNat_ofNat]
      omega
    rw [valueOf_append, List.length_append, List.length_singleton, digitsOf_succ, hq, hr, ih]

/-- Filler bytes spell the greatest number (40_frame.md R151). -/
theorem valueOf_replicate_fill (n : Nat) : valueOf (List.replicate n 0xFF#8) = 2 ^ (8 * n) - 1 := by
  induction n with
  | zero => rfl
  | succ n ih =>
    have hpos := Nat.two_pow_pos (8 * n)
    rw [List.replicate_succ', valueOf_append, ih, show 8 * (n + 1) = 8 * n + 8 by omega, pow_add]
    simp only [BitVec.toNat_ofNat]
    omega

/-- The machine's assembly of at most 8 bytes loses no bit (R144). -/
theorem be_toNat {l : List Byte} (h : l.length ≤ 8) : (be l).toNat = valueOf l := by
  have hp : 2 ^ (8 * l.length) ≤ 2 ^ 64 := Nat.pow_le_pow_right (by omega) (by omega)
  rw [be_eq, BitVec.toNat_ofNat]
  exact Nat.mod_eq_of_lt ((valueOf_lt l).trans_le hp)

/-- Settles O20, by the two round trips between a number and its digits. -/
theorem bigEndianBytesRoundTrip : Obligations.BigEndianBytesRoundTrip := by
  intro n _ hn
  refine ⟨fun v hv => ⟨bytesBe_length v n, fun k hk => ?_, ?_⟩, fun l hl => ?_⟩
  · rw [bytesBe_eq_digitsOf, getElem?_digitsOf hk]
  · rw [be_eq, bytesBe_eq_digitsOf, valueOf_digitsOf hv, BitVec.ofNat_toNat, BitVec.setWidth_eq]
  · subst hl
    rw [bytesBe_eq_digitsOf, be_toNat hn, digitsOf_valueOf]

/-- Settles O21: up to 8 bytes the assembly is the number they spell. -/
theorem bigEndianAssembly : Obligations.BigEndianAssembly := by
  refine ⟨fun l hl => ?_, fun l b hl => ?_, fun b0 b1 b2 => ?_⟩
  · rw [be_toNat hl]
    exact valueOf_lt l
  · have hl' : (l ++ [b]).length ≤ 8 := by
      rw [List.length_append, List.length_singleton]
      omega
    rw [be_toNat hl', be_toNat (by omega), valueOf_append]
  · rw [be_toNat (by simp)]
    simp only [valueOf, List.foldl_cons, List.foldl_nil]
    omega

end Sys2Proof.Proofs
end

section
/-! PROOF. The frame family, PARSE: the outcome of a frame operation in the parse walk is read off `parseSlice`,
and each statement's proof says which branch of `parseSlice` its slice takes (40_frame.md R130 to R135, R143 to
R151). -/

namespace Sys2Proof.Proofs

open Sys2Proof.Machine Sys2Proof.Laws

/-! ### From a slice to the outcome of the instruction -/

/-- A check that fails on the slice aborts the transaction. -/
theorem abortsAs_exec_frame {f : Frame} {s : State} {sl : List Byte} (hp : s.phase = .parse)
    (hl : sl.length = frameCount f) (hs : SliceAt s sl) {e : ErrorKind} (he : parseSlice s f sl = .error e) :
    AbortsAs (exec f.instr s) s e.code e.sub (slicePecr s s.pecr f sl) := by
  rw [exec_frame_instr, execFrame_parse hp hl hs, he]
  rfl

/-- A slice that parses is delivered as RES[FP]. -/
theorem deliversAs_exec_frame {f : Frame} {s : State} {sl : List Byte} (hp : s.phase = .parse)
    (hl : sl.length = frameCount f) (hs : SliceAt s sl) (hq : s.fp.toNat < s.params.qdepth)
    (hr : s.fp.toNat ≤ s.res.length) {v : Nat} (hv : parseSlice s f sl = .ok (BitVec.ofNat 64 v)) :
    DeliversAs (exec f.instr s) s v (frameCount f) (slicePecr s s.pecr f sl) := by
  rw [exec_frame_instr, execFrame_parse hp hl hs, hv]
  dsimp only
  rw [deliver_fits (s := { s with pecr := slicePecr s s.pecr f sl }) _ _ hq]
  exact ⟨_, rfl, rfl, getElem?_writeResult hr _⟩

/-! ### The branches of `parseSlice` -/

theorem hlen_le_of_length_eq {f : Frame} {sl : List Byte} (h : sl.length = frameCount f) :
    hlen f.fmt ≤ sl.length := by
  rw [h, frameCount]
  omega

/-- The echo check fails where it is asked for and a header byte is not 0x00 (R146). -/
theorem echoFails_iff {s : State} {f : Frame} {sl : List Byte} (h : hlen f.fmt ≤ sl.length) :
    echoFails s f sl = true ↔
      s.echoChk = true ∧ sl.take (hlen f.fmt) ≠ List.replicate (hlen f.fmt) 0#8 := by
  have hz : ∀ b : Byte, b.toNat = 0 ↔ b = 0#8 := fun b => by rw [← BitVec.toNat_inj]; rfl
  have hl : (sl.take (hlen f.fmt)).length = hlen f.fmt := by simpa using h
  rw [echoFails, Bool.and_eq_true, Bool.not_eq_true', ← Bool.not_eq_true, List.all_eq_true, ne_eq,
    List.eq_replicate_iff]
  simp [hl, hz]

theorem echoFails_eq_false {s : State} {f : Frame} {sl : List Byte} (h : hlen f.fmt ≤ sl.length)
    (he : s.echoChk = false ∨ sl.take (hlen f.fmt) = List.replicate (hlen f.fmt) 0#8) :
    echoFails s f sl = false := by
  rw [← Bool.not_eq_true, echoFails_iff h]
  rintro ⟨hc, hn⟩
  exact he.elim (fun h => Bool.false_ne_true (h.symm.trans hc)) hn

theorem parseSlice_of_echoFails {s : State} {f : Frame} {sl : List Byte} (h : echoFails s f sl = true) :
    parseSlice s f sl = .error .framingEcho := by
  rw [parseSlice, if_pos h]

theorem slicePecr_of_echoFails {s : State} {f : Frame} {sl : List Byte} (h : echoFails s f sl = true)
    (p : PecReg) : slicePecr s p f sl = p := by
  simp [slicePecr, h]

theorem parseSlice_of_fieldFails {s : State} {f : Frame} {sl : List Byte} (h : echoFails s f sl = false)
    (hq : fieldFails s f sl = true) : parseSlice s f sl = .error .pecMismatch := by
  simp [parseSlice, h, hq]

theorem parseSlice_of_passes {s : State} {f : Frame} {sl : List Byte} (h : echoFails s f sl = false)
    (hq : fieldFails s f sl = false) :
    parseSlice s f sl = .ok (BitVec.ofNat 64 (valueOf (sliceBytes f sl))) := by
  simp [parseSlice, h, hq]

/-- RD.C alone verifies a PEC field (R148); a format C write discards its tail (R149). -/
def verifiesField (f : Frame) : Bool := f.fmt == .c && f.rd

theorem verifiesField_eq_false {f : Frame} (h : f.rd = false ∨ f.fmt ≠ .c) : verifiesField f = false := by
  rcases h with h | h <;> simp [verifiesField, h]

theorem fieldFails_iff {s : State} {f : Frame} {sl : List Byte} : fieldFails s f sl = true ↔
    verifiesField f = true ∧ sl.drop (hlen f.fmt + f.dlen.toNat) ≠ s.pecBytes (sliceBytes f sl) := by
  rw [fieldFails, Bool.and_eq_true, bne_iff_ne]
  rfl

theorem fieldFails_of_not_verifiesField {s : State} {f : Frame} {sl : List Byte}
    (hv : verifiesField f = false) : fieldFails s f sl = false :=
  Bool.eq_false_iff.mpr fun h => Bool.eq_false_iff.mp hv (fieldFails_iff.mp h).1

theorem slicePecr_eq {s : State} {f : Frame} {sl : List Byte} (h : echoFails s f sl = false) (p : PecReg) :
    slicePecr s p f sl = if verifiesField f then s.pecOf (sliceBytes f sl) else p := by
  rw [slicePecr, h, Bool.not_false, Bool.and_true]
  rfl

/-! ### The three outcomes of a slice -/

section
variable {f : Frame} {s : State} {sl : List Byte} (hp : s.phase = .parse) (hl : sl.length = frameCount f)
  (hs : SliceAt s sl)
include hp hl hs

/-- A bad echo aborts with Framing ECHO before anything is computed (R143, R146). -/
theorem abortsAs_of_bad_echo
    (he : s.echoChk = true ∧ sl.take (hlen f.fmt) ≠ List.replicate (hlen f.fmt) 0#8) :
    AbortsAs (exec f.instr s) s 2#4 2#4 s.pecr := by
  have hf := (echoFails_iff (hlen_le_of_length_eq hl)).mpr he
  have h := abortsAs_exec_frame hp hl hs (parseSlice_of_echoFails hf)
  rwa [slicePecr_of_echoFails hf] at h

variable (he : s.echoChk = false ∨ sl.take (hlen f.fmt) = List.replicate (hlen f.fmt) 0#8)
include he

/-- Past the echo, a field that is not the PEC of the data aborts with PEC/CRC mismatch (R148). -/
theorem abortsAs_of_bad_field (hq : fieldFails s f sl = true) :
    AbortsAs (exec f.instr s) s 3#4 0#4 (s.pecOf (sliceBytes f sl)) := by
  have hf := echoFails_eq_false (hlen_le_of_length_eq hl) he
  have h := abortsAs_exec_frame hp hl hs (parseSlice_of_fieldFails hf hq)
  rwa [slicePecr_eq hf, if_pos (fieldFails_iff.mp hq).1] at h

/-- Past both checks the data bytes are delivered (R143, R144, R147). -/
theorem deliversAs_of_passes (hq : fieldFails s f sl = false) (hfp : s.fp.toNat < s.params.qdepth)
    (hr : s.fp.toNat ≤ s.res.length) :
    DeliversAs (exec f.instr s) s (valueOf (sliceBytes f sl)) (frameCount f)
      (if verifiesField f then s.pecOf (sliceBytes f sl) else s.pecr) := by
  have hf := echoFails_eq_false (hlen_le_of_length_eq hl) he
  rw [← slicePecr_eq hf]
  exact deliversAs_exec_frame hp hl hs hfp hr (parseSlice_of_passes hf hq)

end

/-- A frame that verifies no field has one check, the echo (R146, R147). -/
theorem parses_of_not_verifiesField {f : Frame} {s : State} {sl : List Byte} (hv : verifiesField f = false)
    (hp : s.phase = .parse) (hl : sl.length = frameCount f) (hs : SliceAt s sl)
    (hfp : s.fp.toNat < s.params.qdepth) (hr : s.fp.toNat ≤ s.res.length) :
    (s.echoChk = true ∧ sl.take (hlen f.fmt) ≠ List.replicate (hlen f.fmt) 0#8 →
      AbortsAs (exec f.instr s) s 2#4 2#4 s.pecr) ∧
    (s.echoChk = false ∨ sl.take (hlen f.fmt) = List.replicate (hlen f.fmt) 0#8 →
      DeliversAs (exec f.instr s) s (valueOf (sliceBytes f sl)) (frameCount f) s.pecr) := by
  refine ⟨abortsAs_of_bad_echo hp hl hs, fun he => ?_⟩
  have h := deliversAs_of_passes hp hl hs he (fieldFails_of_not_verifiesField hv) hfp hr
  rwa [hv] at h

/-! ### The parts of a slice -/

theorem sliceBytes_of_no_tail {f : Frame} {sl : List Byte} (hl : sl.length = hlen f.fmt + f.dlen.toNat) :
    sliceBytes f sl = sl.drop (hlen f.fmt) :=
  List.take_of_length_le (by rw [List.length_drop]; omega)

theorem sliceBytes_append {f : Frame} {hd dat : List Byte} (hh : hd.length = hlen f.fmt)
    (hn : dat.length = f.dlen.toNat) (tl : List Byte) : sliceBytes f (hd ++ dat ++ tl) = dat := by
  rw [sliceBytes, List.append_assoc, List.drop_left' hh, List.take_left' hn]

theorem take_header_append {n : Nat} {hd : List Byte} (hh : hd.length = n) (dat tl : List Byte) :
    (hd ++ dat ++ tl).take n = hd := by
  rw [List.append_assoc, List.take_left' hh]

theorem fieldFails_append_iff {s : State} {f : Frame} {hd dat : List Byte} (hh : hd.length = hlen f.fmt)
    (hn : dat.length = f.dlen.toNat) (tl : List Byte) :
    fieldFails s f (hd ++ dat ++ tl) = true ↔ verifiesField f = true ∧ tl ≠ s.pecBytes dat := by
  rw [fieldFails_iff, sliceBytes_append hh hn, List.drop_left' (by rw [List.length_append, hh, hn])]

/-! ### Formats A and B -/

theorem frameCount_of_ne_c {f : Frame} (hf : f.fmt ≠ .c) : frameCount f = hlen f.fmt + f.dlen.toNat := by
  obtain ⟨_ | _ | _, rd, a, n, v⟩ := f
  case c => exact absurd rfl hf
  all_goals rfl

/-- A frame of format A or B has no tail: past the echo, all of its slice after the header is delivered. -/
theorem parses_of_ne_c {f : Frame} {s : State} {sl : List Byte} (hf : f.fmt ≠ .c) (hp : s.phase = .parse)
    (hl : sl.length = hlen f.fmt + f.dlen.toNat) (hs : SliceAt s sl)
    (hfp : s.fp.toNat < s.params.qdepth) (hr : s.fp.toNat ≤ s.res.length) :
    (s.echoChk = true ∧ sl.take (hlen f.fmt) ≠ List.replicate (hlen f.fmt) 0#8 →
      AbortsAs (exec f.instr s) s 2#4 2#4 s.pecr) ∧
    (s.echoChk = false ∨ sl.take (hlen f.fmt) = List.replicate (hlen f.fmt) 0#8 →
      DeliversAs (exec f.instr s) s (valueOf (sl.drop (hlen f.fmt))) (hlen f.fmt + f.dlen.toNat) s.pecr) := by
  have hc := frameCount_of_ne_c hf
  have h := parses_of_not_verifiesField (verifiesField_eq_false (.inr hf)) hp (hl.trans hc.symm) hs hfp hr
  rwa [sliceBytes_of_no_tail hl, hc] at h

/-- Settles O25: a format A slice is one echo byte and the data. -/
theorem formatAParses : Obligations.FormatAParses := by
  intro s a n v sl hp hl hs hfp hr
  have h0 : sl[0]? = some 0x00#8 ↔ sl.take 1 = [0x00#8] := by
    cases sl <;> simp
  have h (rd : Bool) := parses_of_ne_c (f := ⟨.a, rd, a, n, v⟩) nofun hp hl hs hfp hr
  simp only [List.forall_mem_cons, List.not_mem_nil, ne_eq, h0]
  exact ⟨h true, h false, fun _ h => nomatch h⟩

/-- Settles O26: a format B slice is two echo bytes and the data. -/
theorem formatBParses : Obligations.FormatBParses := by
  intro s a n v sl hp hl hs hfp hr
  have h (rd : Bool) := parses_of_ne_c (f := ⟨.b, rd, a, n, v⟩) nofun hp hl hs hfp hr
  simp only [List.forall_mem_cons, List.not_mem_nil]
  exact ⟨h true, h false, fun _ h => nomatch h⟩

/-! ### Format C -/

/-- The slice of a format C frame: four echo bytes, the data, the received PEC field (R143). -/
theorem length_formatC {hd dat : List Byte} {n : Nat} (hh : hd.length = 4) (hn : dat.length = n)
    (q0 q1 : Byte) : (hd ++ dat ++ [q0, q1]).length = 4 + n + 2 := by
  rw [List.length_append, List.length_append, hh, hn]
  rfl

/-- Settles O27: the received field is what follows the data. -/
theorem formatCReadVerifiesThePec : Obligations.FormatCReadVerifiesThePec := by
  intro s a n v hd dat q0 q1 hp hh hn hs hfp hr
  have hl := length_formatC hh hn q0 q1
  have hb : sliceBytes ⟨.c, true, a, n, v⟩ (hd ++ dat ++ [q0, q1]) = dat := sliceBytes_append hh hn _
  have hq : fieldFails s ⟨.c, true, a, n, v⟩ (hd ++ dat ++ [q0, q1]) = true ↔ [q0, q1] ≠ s.pecBytes dat :=
    (fieldFails_append_iff hh hn _).trans (and_iff_right rfl)
  have hecho := abortsAs_of_bad_echo (f := ⟨.c, true, a, n, v⟩) hp hl hs
  have hfield := abortsAs_of_bad_field (f := ⟨.c, true, a, n, v⟩) hp hl hs
  have hpass := deliversAs_of_passes (f := ⟨.c, true, a, n, v⟩) hp hl hs
  rw [hb] at hfield hpass
  simp only [hlen, take_header_append hh] at hecho hfield hpass
  rw [frameCount_c rfl] at hpass
  exact ⟨hecho, fun he => ⟨fun h => hpass he (Bool.eq_false_iff.mpr fun hf => hq.mp hf h) hfp hr,
    fun h => hfield he (hq.mpr h)⟩⟩

/-- Settles O28: WR.C verifies no field, so the echo is its one check. -/
theorem formatCWriteIgnoresTheTail : Obligations.FormatCWriteIgnoresTheTail := by
  intro s a n v hd dat q0 q1 hp hh hn hs hfp hr
  have h := parses_of_not_verifiesField (f := ⟨.c, false, a, n, v⟩) rfl hp (length_formatC hh hn q0 q1) hs
    hfp hr
  rw [sliceBytes_append hh hn, frameCount_c rfl] at h
  simp only [hlen, take_header_append hh] at h
  exact h

/-! ### A short slice -/

/-- A read over a byte that holds no value is short. -/
theorem memRead_length_lt {m : Memory} {a n k : Nat} (hk : k < n) (h : m.byte (a + k) = none) :
    (memRead m a n).length < n := by
  have hlt : ((List.range n).filterMap fun k => m.byte (a + k)).length < (List.range n).length :=
    List.length_filterMap_lt_length_iff_exists.mpr ⟨k, List.mem_range.mpr hk, h⟩
  rwa [List.length_range] at hlt

/-- Settles O29: the length of the slice is the first check of PARSE (R143). -/
theorem shortSliceRaisesLen : Obligations.ShortSliceRaisesLen := by
  rintro s f hp ⟨k, hk, hb⟩
  rw [exec_frame_instr, execFrame_eq, runFrame_parse hp, parseFrame]
  exact if_pos (memRead_length_lt hk hb).ne

/-! ### The idle bus -/

/-- The lowest bit of P1 is padding wherever PEC_W is below 16 (41_pec_engine.md R176). -/
theorem pecLow_getLsbD_zero {w : Nat} (h : w < 16) (v : BitVec w) : (pecLow v).getLsbD 0 = false := by
  have hw : 0 < 16 - w := by omega
  simp [pecLow, pecAligned, hw]

/-- So no PEC field is the two bytes 0xFF. -/
theorem pecBytes_ne_fill {s : State} (h : s.pecW < 16) (l : List Byte) :
    s.pecBytes l ≠ [0xFF#8, 0xFF#8] := by
  intro he
  obtain ⟨-, h1⟩ := List.cons.inj he
  have h0 := pecLow_getLsbD_zero h (s.pecVector l)
  rw [(List.cons.inj h1).1] at h0
  exact absurd h0 (by decide)

/-- Settles O31: the received field is two bytes 0xFF, which no PEC is. -/
theorem idleBusFailsThePecCheck : Obligations.IdleBusFailsThePecCheck := by
  intro s a n v hw hp hc hs
  have hsplit : List.replicate (6 + n.toNat) 0xFF#8 =
      List.replicate 4 0xFF#8 ++ List.replicate n.toNat 0xFF#8 ++ [0xFF#8, 0xFF#8] := by
    rw [show [0xFF#8, 0xFF#8] = List.replicate 2 0xFF#8 from rfl, ← List.replicate_add, ← List.replicate_add]
    congr 1
    omega
  have hh : (List.replicate 4 0xFF#8).length = hlen .c := rfl
  have hn : (List.replicate n.toNat 0xFF#8).length = n.toNat := List.length_replicate
  rw [hsplit] at hs
  have h := abortsAs_of_bad_field (f := ⟨.c, true, a, n, v⟩) hp (length_formatC hh hn _ _) hs (.inl hc)
    ((fieldFails_append_iff hh hn _).mpr ⟨rfl, (pecBytes_ne_fill hw _).symm⟩)
  rwa [sliceBytes_append hh hn] at h

/-! ### Loopback -/

theorem frameHeader_length (s : State) (f : Frame) : (frameHeader s f).length = hlen f.fmt := by
  obtain ⟨_ | _ | _, rd, a, n, v⟩ := f <;> rfl

/-- The data bytes of what a frame sends are its data (R136, R143). -/
theorem sliceBytes_frameTx (s : State) (f : Frame) : sliceBytes f (frameTx s f) = frameData f :=
  sliceBytes_append (frameHeader_length s f) (frameData_length f) _

/-- The data of a legal write spell its VALUE (R138, 30_encoding.md R105). -/
theorem valueOf_frameData_write {f : Frame} (hl : f.legal = true) (hw : f.rd = false) :
    valueOf (frameData f) = f.value.toNat := by
  have hv : f.value.toNat < 2 ^ (8 * f.dlen.toNat) := by
    simp only [Frame.legal, hw, Bool.false_or, Bool.and_eq_true, valueOk, decide_eq_true_eq] at hl
    exact hl.2
  rw [frameData, hw, if_neg Bool.false_ne_true, valueOf_digitsOf hv]

/-- The data of a read spell 2^(8n) - 1 (R138). -/
theorem valueOf_frameData_read {f : Frame} (hr : f.rd = true) :
    valueOf (frameData f) = 2 ^ (8 * f.dlen.toNat) - 1 := by
  rw [frameData, if_pos hr, valueOf_replicate_fill]

/-- Settles O32: the slice is `frameTx`, whose data bytes are the frame's. -/
theorem loopbackRoundTripOfAFrame : Obligations.LoopbackRoundTripOfAFrame := by
  intro s f hp hc hl hs hfp hr
  have h : verifiesField f = false →
      DeliversAs (exec f.instr s) s (valueOf (frameData f)) (frameCount f) s.pecr := fun hv =>
    sliceBytes_frameTx s f ▸
      (parses_of_not_verifiesField hv hp (frameTx_length s f) hs hfp hr).2 (.inl hc)
  refine ⟨fun hw => ?_, fun hrd hf => ?_⟩
  · rw [← valueOf_frameData_write hl hw]
    exact h (verifiesField_eq_false (.inl hw))
  · rw [← valueOf_frameData_read hrd]
    exact h (verifiesField_eq_false (.inr hf))

/-- A legal write parses what it sent to its VALUE (R151). -/
theorem parseSlice_frameTx_write {s : State} {f : Frame} (hc : s.echoChk = false) (hl : f.legal = true)
    (hw : f.rd = false) : parseSlice s f (frameTx s f) = .ok f.value := by
  have he : echoFails s f (frameTx s f) = false :=
    echoFails_eq_false (hlen_le_of_length_eq (frameTx_length s f)) (.inl hc)
  rw [parseSlice_of_passes he (fieldFails_of_not_verifiesField (verifiesField_eq_false (.inl hw))),
    sliceBytes_frameTx, valueOf_frameData_write hl hw, BitVec.ofNat_toNat, BitVec.setWidth_eq]

/-- Legal writes parse what they sent, one after the other, to their VALUEs. -/
theorem parseQueue_flatMap_frameTx {s : State} (hc : s.echoChk = false) {fs : List Frame}
    (hl : ∀ f ∈ fs, f.legal = true) (hw : ∀ f ∈ fs, f.rd = false) :
    parseQueue s fs (fs.flatMap (frameTx s)) = .ok (fs.map Frame.value) := by
  induction fs with
  | nil => rfl
  | cons f fs ih =>
    rw [List.forall_mem_cons] at hl hw
    rw [List.flatMap_cons, parseQueue, List.take_left' (frameTx_length s f),
      List.drop_left' (frameTx_length s f), parseSlice_frameTx_write hc hl.1 hw.1, ih hl.2 hw.2]
    rfl

/-- The frames of a legal queue are legal (10_state.md R28). -/
theorem legal_of_mem_queueFrames {s : State} (h : s.Inv) {f : Frame} (hf : f ∈ queueFrames s) :
    f.legal = true := by
  have hm : Except.ok f ∈ s.dq.map decodeFrame :=
    map_decodeFrame_queue h.queueLegal ▸ List.mem_map_of_mem hf
  obtain ⟨d, -, hd⟩ := List.mem_map.mp hm
  exact ((decodeFrame_eq_ok_iff_descriptor d f).mp hd).2

/-- Settles O46: the answer has the length of what was sent, and every frame parses its own bytes. -/
theorem loopbackExecReturnsTheWrittenValues : Obligations.LoopbackExecReturnsTheWrittenValues := by
  intro s h hr hc hw ha
  have hq : parseQueue s (queueFrames s) (queueTx s) = .ok ((queueFrames s).map Frame.value) :=
    parseQueue_flatMap_frameTx hc (fun f hf => legal_of_mem_queueFrames h hf) hw
  exact ⟨_, (execExec_of_parsed h hr ha rfl hq).2, rfl, rfl, rfl, rfl, rfl⟩

end Sys2Proof.Proofs
end

section
/-! PROOF. The PEC engine family (41_pec_engine.md R171 to R179): the bits of SHIFT, the bytes of a list, the two bytes
of a vector, and the two commands. -/

namespace Sys2Proof.Proofs

open Sys2Proof.Machine Sys2Proof.Laws

/-! ### SHIFT and BYTE -/

/-- The feedback bit of SHIFT (R172). -/
def feedback {w : Nat} (r : BitVec w) (din : Bool) : Bool := din ^^ r.getLsbD (w - 1)

/-- A bit of the shifted vector: the lower neighbour, none for bit 0, XOR the feedback bit at a tap (R172). -/
theorem getLsbD_pecShift {w p : Nat} (hp : p < w) (taps r : BitVec w) (din : Bool) :
    (pecShift taps r din).getLsbD p =
      ((decide (p ≠ 0) && r.getLsbD (p - 1)) ^^ (taps.getLsbD p && feedback r din)) := by
  have hm : (din ^^ r.msb) = feedback r din := by rw [feedback, BitVec.msb_eq_getLsbD_last]
  have hs : (r <<< 1).getLsbD p = (decide (p ≠ 0) && r.getLsbD (p - 1)) := by
    simp only [BitVec.getLsbD_shiftLeft, hp, decide_true, Bool.true_and, ne_eq, Nat.lt_one_iff, decide_not]
  rw [pecShift, hm]
  cases feedback r din with
  | true => rw [if_pos rfl, BitVec.getLsbD_xor, hs, Bool.and_true]
  | false => rw [if_neg Bool.false_ne_true, hs, Bool.and_false, Bool.xor_false]

/-- Settles O14: bit 0 has no lower neighbour, so the tap at 0 makes it the feedback bit. -/
theorem shiftFollowsTheTaps : Obligations.ShiftFollowsTheTaps := by
  intro w taps r din hw ht
  constructor
  · rw [getLsbD_pecShift hw, ht]
    simp [feedback]
  · intro p hp hpw
    have h0 : p ≠ 0 := by omega
    rw [getLsbD_pecShift (by omega), decide_eq_true h0, Bool.true_and, feedback]

/-- One more byte is one more BYTE (R175). -/
theorem pec_append_singleton {w : Nat} (seed taps : BitVec w) (l : List Byte) (b : Byte) :
    pec seed taps (l ++ [b]) = pecByte taps (pec seed taps l) b := by
  rw [pec, List.foldl_append]
  rfl

/-- Settles O15: BYTE is the eight shifts. -/
theorem pecConsumesBytesTopBitFirst : Obligations.PecConsumesBytesTopBitFirst :=
  fun _ seed taps l b => ⟨rfl, pec_append_singleton seed taps l b⟩

/-! ### The two bytes of a vector -/

section
variable {w : Nat} (hw : w ≤ 16) (v : BitVec w)
include hw

/-- Aligning a vector to the left loses no bit: the vector has `w` bits and moves up by 16 - `w` (R176). -/
theorem pecAligned_toNat : (pecAligned v).toNat = v.toNat * 2 ^ (16 - w) := by
  have hlt : v.toNat * 2 ^ (16 - w) < 2 ^ 16 :=
    calc v.toNat * 2 ^ (16 - w) < 2 ^ w * 2 ^ (16 - w) :=
          Nat.mul_lt_mul_of_pos_right v.isLt (Nat.two_pow_pos _)
      _ = 2 ^ 16 := by rw [← pow_add, Nat.add_sub_cancel' hw]
  have hv : (v.setWidth 16).toNat = v.toNat := holdVector_toNat hw v
  rw [pecAligned, BitVec.toNat_shiftLeft, hv, Nat.shiftLeft_eq, Nat.mod_eq_of_lt hlt]

theorem pecHigh_eq : pecHigh v = BitVec.ofNat 8 (v.toNat * 2 ^ (16 - w) / 256) := by
  apply BitVec.eq_of_toNat_eq
  rw [pecHigh, toNat_extractLsb'_eq, pecAligned_toNat hw, BitVec.toNat_ofNat, show 2 ^ 8 = 256 from rfl]

theorem pecLow_eq : pecLow v = BitVec.ofNat 8 (v.toNat * 2 ^ (16 - w)) := by
  apply BitVec.eq_of_toNat_eq
  rw [pecLow, toNat_extractLsb'_eq, pecAligned_toNat hw, BitVec.toNat_ofNat, pow_zero, Nat.div_one]

theorem pecHigh_mul_add_pecLow :
    (pecHigh v).toNat * 256 + (pecLow v).toNat = v.toNat * 2 ^ (16 - w) := by
  have hlt := (pecAligned v).isLt
  rw [pecAligned_toNat hw] at hlt
  rw [pecHigh_eq hw, pecLow_eq hw, BitVec.toNat_ofNat, BitVec.toNat_ofNat]
  omega

end

/-- Settles O16: P0 and P1 are the digits in base 256 of the aligned vector. -/
theorem pecFieldIsTheVectorLeftAligned : Obligations.PecFieldIsTheVectorLeftAligned :=
  ⟨fun _ v _ hw => pecHigh_mul_add_pecLow hw v, pecLow_getLsbD_zero (by decide)⟩

/-! ### PEC.CALC and PEC.CHK -/

/-- A register of the engine read as a vector, as a number (R181). -/
theorem vectorIn_eq_ofNat (s : State) (r : PecReg) : s.vectorIn r = BitVec.ofNat s.pecW r.toNat :=
  (BitVec.ofNat_toNat s.pecW r).symm

theorem holdVector_eq_ofNat {w : Nat} (v : BitVec w) : holdVector v = BitVec.ofNat 16 v.toNat :=
  (BitVec.ofNat_toNat 16 v).symm

/-- PEC.CALC computes and answers the two bytes of the vector (R178). -/
theorem answersAs_pecCalc (s : State) (l : List Byte) :
    AnswersAs (exec (.pecCalc l) s) { s with pecr := s.pecOf l }
      (.pecField (pecHigh (s.pecVector l)) (pecLow (s.pecVector l))) := rfl

/-- Settles O17: the vector of the registers is the vector of their numbers. -/
theorem pecCalcAnswersTheField : Obligations.PecCalcAnswersTheField := by
  intro s l w v
  have hv : s.pecVector l = v := by
    rw [State.pecVector, vectorIn_eq_ofNat, vectorIn_eq_ofNat]
  have h := answersAs_pecCalc s l
  rwa [State.pecOf, hv, holdVector_eq_ofNat, pecHigh_eq s.params.pecW.property.2,
    pecLow_eq s.params.pecW.property.2] at h

/-- The comparison of PEC.CHK is that of the two lists of bytes (R179). -/
theorem field_eq_pecBytes_iff (s : State) (l : List Byte) (q0 q1 : Byte) :
    [q0, q1] = s.pecBytes l ↔ pecHigh (s.pecVector l) = q0 ∧ pecLow (s.pecVector l) = q1 := by
  simp [State.pecBytes, pecOut, eq_comm]

/-- PEC.CHK computes first and then compares (R179). -/
theorem exec_pecChk_eq (s : State) (l : List Byte) (q0 q1 : Byte) :
    exec (.pecChk l q0 q1) s = .next (if [q0, q1] = s.pecBytes l then respond .empty (computePec l s)
      else raise .pecMismatch (computePec l s)) := by
  simp only [exec, execPecChk, field_eq_pecBytes_iff]

/-- Settles O18: the two branches of the comparison. -/
theorem pecChkComparesBothBytes : Obligations.PecChkComparesBothBytes := by
  intro s l q0 q1
  constructor
  · intro h
    rw [exec_pecChk_eq, if_pos h]
    rfl
  · intro h
    rw [exec_pecChk_eq, if_neg h]
    rfl

end Sys2Proof.Proofs
end

section
/-! PROOF. The batcher family (42_batcher.md R200 to R218): the queue commands and RES.RD by their branches, and EXEC by
what XPORT answers, read off the `execExec_of_…` lemmas. -/

namespace Sys2Proof.Proofs

open Sys2Proof.Machine Sys2Proof.Laws

/-! ### The queue (R200 to R203) -/

theorem descriptorLegal_eq_true_iff (d : Descriptor) :
    descriptorLegal d = true ↔ ∃ f, decodeFrame d = .ok f := by
  unfold descriptorLegal
  cases decodeFrame d <;> simp

theorem descriptorLegal_eq_false_iff (d : Descriptor) :
    descriptorLegal d = false ↔ ∃ e, decodeFrame d = .error e := by
  unfold descriptorLegal
  cases decodeFrame d <;> simp

/-- The legality check comes first, whatever the queue holds (R201). -/
theorem pushDescriptor_of_illegal {d : Descriptor} (hd : descriptorLegal d = false) (s : State) :
    pushDescriptor d s = raise .illegalDesc s := by
  obtain ⟨e, he⟩ := (descriptorLegal_eq_false_iff d).mp hd
  rw [pushDescriptor, he]

/-- A legal descriptor is checked for room (R202). -/
theorem pushDescriptor_of_legal {d : Descriptor} (hd : descriptorLegal d = true) (s : State) :
    pushDescriptor d s = if s.params.qdepth ≤ s.dq.length then raise .stateQueueFull s
      else respond .empty { s with dq := s.dq ++ [d] } := by
  obtain ⟨f, hf⟩ := (descriptorLegal_eq_true_iff d).mp hd
  rw [pushDescriptor, hf]

/-- Settles O33: the branch of DQ.PUSH where there is room. -/
theorem dqPushAppends : Obligations.DqPushAppends := by
  intro s w d hd hroom
  have h := pushDescriptor_of_legal hd s
  rw [if_neg (Nat.not_le.mpr hroom)] at h
  exact congrArg Host.Outcome.next h

/-- Settles O34: the two branches of DQ.PUSH that refuse. -/
theorem dqPushRefusals : Obligations.DqPushRefusals := by
  intro s w d
  constructor
  · intro hd
    exact congrArg Host.Outcome.next (pushDescriptor_of_illegal hd s)
  · intro hd hfull
    have h := pushDescriptor_of_legal hd s
    rw [if_pos hfull.ge] at h
    exact congrArg Host.Outcome.next h

/-- Settles O35: DQ.CLR has one outcome, which is the claim's. -/
theorem dqClrEmptiesTheQueue : Obligations.DqClrEmptiesTheQueue := fun _ => rfl

/-! ### The results (R217) -/

/-- Settles O36: RES.RD by whether RES has an entry at the index. -/
theorem resRdAnswersOrRefuses : Obligations.ResRdAnswersOrRefuses := by
  intro s i
  constructor
  · intro v hv
    have h : readResult i s = respond (.result v) s := by rw [readResult, hv]
    exact congrArg Host.Outcome.next h
  · intro hi
    have h : readResult i s = raise .stateNoResult s := by
      rw [readResult, List.getElem?_eq_none hi]
    exact congrArg Host.Outcome.next h

/-! ### Who transfers (R205, R206, R208) -/

/-- Settles O37: the READY check comes before the encode walk. -/
theorem execNeedsReady : Obligations.ExecNeedsReady := by
  intro s hr
  show execExec s = .next (raise .stateNotReady s)
  rw [execExec, hr]
  rfl

/-- No host command but EXEC reaches XPORT. -/
theorem bus_of_command {s t : State} {i : Instr} (hi : i ≠ .exec) (h : CommandEnds s t i) :
    t.bus = s.bus := by
  cases h with
  | configures k v _ ht =>
    obtain ⟨e, p, q, o, a, hw⟩ := csrWrite_frame s k v
    rw [ht, respond_bus, hw]
  | batches => exact absurd rfl hi
  | refused _ ht | reads _ ht | resets ht | rejectsBus _ _ _ _ _ ht | validatesBus _ _ _ _ ht
  | clearsRecord ht | pushes _ _ _ _ _ ht | clearsQueue ht | computes _ _ ht | mismatches _ ht =>
    rw [ht]
    rfl

/-- A frame operation does not reach XPORT, its abort included. -/
theorem bus_of_exec_frame {f : Frame} {s t : State} (h : exec f.instr s = .next t) : t.bus = s.bus := by
  rw [exec_frame_instr] at h
  rcases execFrame_next h with hg | ⟨-, hb, -, -⟩
  · exact hg.bus
  · exact hb

/-- Settles O39, by command or frame operation. -/
theorem onlyExecTransfers : Obligations.OnlyExecTransfers := by
  intro i s t hi h
  rcases isCommand_or_frame i with hc | ⟨f, rfl⟩
  · exact bus_of_command hi (exec_command_next hc h)
  · exact bus_of_exec_frame h

/-- What follows the transfer leaves TXB, TXN, the record of what was sent and the configuration as they were at
the transfer, whatever XPORT answers. -/
theorem execExec_frame {s t : State} (h : s.Inv) (hr : s.ready = true) (ht : execExec s = .next t) :
    t = { execSent s with
      res := t.res, fp := t.fp, ofs := t.ofs, done := t.done, err := t.err, esub := t.esub, dq := t.dq
      rxb := t.rxb, rxn := t.rxn, pecr := t.pecr, phase := t.phase, host := t.host } := by
  cases ha : s.bus.answer (queueTx s) with
  | never =>
    cases (execExec_of_never h hr ha).symm.trans ht
    rfl
  | ioerror =>
    cases (execExec_of_ioerror h hr ha).symm.trans ht
    rfl
  | ok rx =>
    by_cases hl : rx.length = (queueTx s).length
    · cases hp : parseQueue s (queueFrames s) rx with
      | ok vs =>
        cases (execExec_of_parsed h hr ha hl hp).2.symm.trans ht
        rfl
      | error p =>
        cases (execExec_of_parse_error h hr ha hl hp).2.symm.trans ht
        rfl
    · cases (execExec_of_length_ne h hr ha hl).symm.trans ht
      rfl

/-- EXEC on a validated bus ends in a next state with the queue's bytes sent once and held in TXB. -/
theorem execExec_sends {s : State} (h : s.Inv) (hr : s.ready = true) :
    ∃ t, execExec s = .next t ∧ t.bus = s.bus.afterTransfer (queueTx s) ∧
      t.txb = Memory.cells 0 (queueTx s) ∧ t.txn = BitVec.ofNat 32 (queueTx s).length := by
  obtain ⟨t, ht⟩ := execExec_goes_on h
  have hf := execExec_frame h hr ht
  exact ⟨t, ht, congrArg State.bus hf, congrArg State.txb hf, congrArg State.txn hf⟩

/-- Settles O38: TXN has 32 bits and holds the number of bytes, which is at most BUFMAX. -/
theorem execMakesOneTransferOfTheQueue : Obligations.ExecMakesOneTransferOfTheQueue := by
  intro s h hr
  obtain ⟨t, ht, hbus, htxb, htxn⟩ := execExec_sends h hr
  exact ⟨t, ht, hbus, htxb, htxn ▸ ofNat_queueTx_length_of_inv h, queueTx_length s,
    queueFrames_length_eq_of_inv h⟩

/-! ### EXEC by what XPORT answers (R210 to R216) -/

/-- Settles O40. -/
theorem execAbortsOnTransportError : Obligations.ExecAbortsOnTransportError :=
  fun _ h hr ha => execExec_of_ioerror h hr ha

/-- Settles O42. -/
theorem execDeliversAllResultsInOrder : Obligations.ExecDeliversAllResultsInOrder :=
  fun _ _ _ h hr ha hl hp => execExec_of_parsed h hr ha hl hp

/-- PARSE of a whole slice raises ECHO or PEC and nothing else (40_frame.md R146, R148). -/
theorem parseSlice_eq_error {s : State} {f : Frame} {sl : List Byte} {e : ErrorKind}
    (h : parseSlice s f sl = .error e) : e = .framingEcho ∨ e = .pecMismatch := by
  unfold parseSlice at h
  split at h
  · cases h
    exact .inl rfl
  · split at h
    · cases h
      exact .inr rfl
    · cases h

/-- So does the parse walk, whichever frame raises. -/
theorem parseQueue_eq_error {s : State} {fs : List Frame} {rx : List Byte} {i : Nat} {e : ErrorKind}
    (h : parseQueue s fs rx = .error (i, e)) : e = .framingEcho ∨ e = .pecMismatch := by
  induction fs generalizing rx i with
  | nil => cases h
  | cons f fs ih =>
    rw [parseQueue] at h
    cases hf : parseSlice s f (rx.take (frameCount f)) with
    | error e' =>
      rw [hf] at h
      cases h
      exact parseSlice_eq_error hf
    | ok v =>
      rw [hf] at h
      cases hq : parseQueue s fs (rx.drop (frameCount f)) with
      | ok vs =>
        rw [hq] at h
        cases h
      | error p =>
        rw [hq] at h
        cases h
        exact ih hq

/-- Settles O43: the error that the first bad frame raises is ECHO or PEC, whose pairs are the claim's. -/
theorem execAbortsAtTheFirstBadFrame : Obligations.ExecAbortsAtTheFirstBadFrame := by
  intro s rx i e h hr ha hl hp
  obtain ⟨hi, hx⟩ := execExec_of_parse_error h hr ha hl hp
  have he := parseQueue_eq_error hp
  refine ⟨hi, he, hx.trans ?_⟩
  rcases he with rfl | rfl <;> rfl

/-! ### The empty queue (R218) -/

theorem queueFrames_of_empty {s : State} (hq : s.dq = []) : queueFrames s = [] := by
  rw [queueFrames, hq]
  rfl

theorem queueTx_of_empty {s : State} (hq : s.dq = []) : queueTx s = [] := by
  rw [queueTx, queueFrames_of_empty hq]
  rfl

/-- Settles O45: an empty answer has the length sent and no slice to parse; any other has the wrong length. -/
theorem execOfAnEmptyQueue : Obligations.ExecOfAnEmptyQueue := by
  intro s h hr hq
  have htx := queueTx_of_empty hq
  obtain ⟨t, ht, hbus, htxb, htxn⟩ := execExec_sends h hr
  rw [htx] at hbus htxb htxn
  refine ⟨t, ht, hbus, htxn, htxb, fun rx ha => ?_⟩
  rw [← htx] at ha
  cases rx with
  | nil =>
    have hp : parseQueue s (queueFrames s) [] = .ok [] := by
      rw [queueFrames_of_empty hq]
      rfl
    cases (execExec_of_parsed h hr ha (congrArg List.length htx).symm hp).2.symm.trans ht
    exact ⟨rfl, rfl, fun _ => ⟨rfl, rfl, rfl, rfl, rfl⟩, fun hne => absurd rfl hne⟩
  | cons b rx =>
    have hl : (b :: rx).length ≠ (queueTx s).length := by simp [htx]
    cases (execExec_of_length_ne h hr ha hl).symm.trans ht
    exact ⟨rfl, rfl, fun hnil => absurd hnil (List.cons_ne_nil b rx), fun _ => ⟨rfl, rfl, rfl, rfl⟩⟩

end Sys2Proof.Proofs
end

section
/-! PROOF. The host control family (43_host_control.md R240 to R250): what a step runs, the registers that CSR.RD reads
and CSR.WR writes, and INIT by its checks, each as arithmetic on its operand. -/

namespace Sys2Proof.Proofs

open Sys2Proof.Machine Sys2Proof.Laws

/-! ### RESET and ERR.CLR (R240, R248) -/

/-- Settles O2: RESET has one outcome, which `toReset` writes as the claim does. -/
theorem resetCommandRestoresResetValues : Obligations.ResetCommandRestoresResetValues := fun _ => rfl

/-- Settles O55: ERR.CLR has one outcome, which is the claim's. -/
theorem errClrClearsTheRecord : Obligations.ErrClrClearsTheRecord := fun _ => rfl

/-! ### What a step runs (R250; 10_state.md R23) -/

/-- Outside a transfer, no hardware reset lands that is not the next input (70_reset_and_hazards.md R310). -/
theorem resetLands_eq_none_of_head {s : State} (hp : s.phase ≠ .transfer)
    (hq : ∀ rest, s.host.pending ≠ .hardwareReset :: rest) : s.resetLands = none := by
  refine Option.eq_none_iff_forall_ne_some.mpr fun rest h => ?_
  obtain hhead | ⟨ht, -⟩ := resetLands_some h
  · exact hq rest hhead
  · exact hp ht

/-- Inside a walk of EXEC a step runs the words of DQ[FP] (10_state.md R23). -/
theorem step_of_walk {s : State} {d : Descriptor} (hp : s.phase = .encode ∨ s.phase = .parse)
    (hd : s.dq[s.fp.toNat]? = some d) (hq : ∀ rest, s.host.pending ≠ .hardwareReset :: rest) :
    step s = runCode (.desc d) s := by
  rcases hp with hp | hp
  all_goals
    have hr := resetLands_eq_none_of_head (by simp [hp]) hq
    simp only [step, hr, stepPhase, State.fetch, hp, hd, Option.map_some]

/-- Words that decode run as the instruction they are. -/
theorem runCode_of_decode {c : Code} {i : Instr} (h : decode c = .ok i) (s : State) :
    runCode c s = exec i s := by
  rw [runCode, h]

/-- Settles O10: a step between commands, a step inside a walk, and a step with nothing presented. -/
theorem stepRunsTheDecodedInstruction : Obligations.StepRunsTheDecodedInstruction := by
  refine ⟨fun s m rest i hp hq hi => ?_, fun s d i hp hd hi hq => ?_, fun s => step_of_no_input⟩
  · rw [step_of_command hp hq, runCode_of_decode hi, takeInput, hq, List.tail_cons]
  · rw [step_of_walk hp hd hq, runCode_of_decode hi]

/-! ### CSR.RD (R241) -/

/-- CSR.RD of an implemented register answers its word. -/
theorem answersAs_csrRd {s : State} {k : BitVec 8} {v : Word} (h : csrRead s k = some v) :
    AnswersAs (exec (.csrRd k) s) s (.word v) := by
  have hs : readCsr k s = respond (.word v) s := by rw [readCsr, h]
  exact congrArg Host.Outcome.next hs

/-- STATUS as the sum of its fields at their places (10_state.md R31). -/
theorem statusWord_eq (s : State) : s.statusWord = BitVec.ofNat 32
    (s.ready.toNat + 2 * s.done.toNat + 4 * s.warn.toNat + 16 * s.err.toNat + 256 * s.esub.toNat) := by
  have := s.ready.toNat_lt
  have := s.done.toNat_lt
  have := s.warn.toNat_lt
  have := s.err.isLt
  have := s.esub.isLt
  apply BitVec.eq_of_toNat_eq
  simp only [State.statusWord, toNat_append_eq, BitVec.toNat_ofNat, BitVec.toNat_ofBool]
  omega

/-- BUSFMT as the sum of its fields at their places; bits 0 and 31:8 read 0 (10_state.md R36). -/
theorem busfmt_eq (s : State) : 0#24 ++ s.opc ++ s.hwaddr ++ 0#1 =
    BitVec.ofNat 32 (2 * s.hwaddr.toNat + 16 * s.opc.toNat) := by
  have := s.opc.isLt
  have := s.hwaddr.isLt
  apply BitVec.eq_of_toNat_eq
  simp only [toNat_append_eq, BitVec.toNat_ofNat]
  omega

/-- A register of the engine reads as its PEC_W bits (10_state.md R34, R35, R41). -/
theorem vectorIn_word (s : State) (r : PecReg) :
    (s.vectorIn r).setWidth 32 = BitVec.ofNat 32 (r.toNat % 2 ^ s.params.pecW.val) := by
  rw [← BitVec.toNat_setWidth, BitVec.ofNat_toNat, State.vectorIn]

/-- A counter of 16 bits reads as the number modulo 2^16 (10_state.md R37, R38). -/
theorem counter_word (n : Nat) : (BitVec.ofNat 16 n).setWidth 32 = BitVec.ofNat 32 (n % 65536) := by
  rw [← BitVec.ofNat_toNat, BitVec.toNat_ofNat]

/-- Settles O48: register by register, the word of `csrRead` as a number. -/
theorem csrRdAnswersEachRegister : Obligations.CsrRdAnswersEachRegister := by
  intro s
  refine ⟨answersAs_csrRd ?status, answersAs_csrRd ?fp, answersAs_csrRd ?ctrl, answersAs_csrRd ?seed,
    answersAs_csrRd ?taps, answersAs_csrRd ?busfmt, answersAs_csrRd ?dqn, answersAs_csrRd ?resn,
    answersAs_csrRd rfl, answersAs_csrRd rfl, answersAs_csrRd ?pecr⟩
  case status => exact congrArg some (statusWord_eq s)
  case fp => exact congrArg some (BitVec.ofNat_toNat 32 s.fp).symm
  case ctrl =>
    rw [← BitVec.toNat_ofBool]
    exact congrArg some (BitVec.ofNat_toNat 32 (BitVec.ofBool s.echoChk)).symm
  case seed => exact congrArg some (vectorIn_word s s.pecSeed)
  case taps => exact congrArg some (vectorIn_word s s.pecTaps)
  case busfmt => exact congrArg some (busfmt_eq s)
  case dqn => exact congrArg some (counter_word s.dq.length)
  case resn => exact congrArg some (counter_word s.res.length)
  case pecr => exact congrArg some (vectorIn_word s s.pecr)

/-! ### CSR.WR (R242) -/

/-- CSR.WR of a writable register that is not locked writes it and answers success. -/
theorem answersAs_csrWr {s t : State} {k : BitVec 8} {v : Word} (hr : s.ready = false)
    (hk : csrWritable k = true) (h : csrWrite s k v = t) : AnswersAs (exec (.csrWr k v) s) t .empty := by
  have hn : ¬ 10 < k.toNat := by
    simp only [csrWritable, decide_eq_true_eq] at hk
    omega
  have hw : writeCsr k v s = respond .empty t := by
    rw [writeCsr, if_neg hn, hk, Bool.not_true, hr, if_neg Bool.false_ne_true, if_neg Bool.false_ne_true, h]
  exact congrArg Host.Outcome.next hw

/-- Bit 0 set in a number. -/
theorem or_one_eq (n : Nat) : n ||| 1 = n / 2 * 2 + 1 := by
  have hmod : (n ||| 1) % 2 = 1 := Nat.or_mod_two_eq_one.mpr (.inr rfl)
  have hdiv : (n ||| 1) / 2 = n / 2 := by rw [Nat.or_div_two, Nat.or_zero]
  omega

/-- What PEC_SEED takes of a word (10_state.md R34). -/
theorem holdVector_word (w : Nat) (v : Word) :
    holdVector (v.setWidth w) = BitVec.ofNat 16 (v.toNat % 2 ^ w) := by
  rw [holdVector_eq_ofNat, BitVec.toNat_setWidth]

/-- What PEC_TAPS takes of a word: bit 0 stays 1 (10_state.md R35). -/
theorem holdVector_word_or_one (w : Nat) (v : Word) :
    holdVector (v.setWidth w ||| 1#w) = BitVec.ofNat 16 ((v.toNat / 2 * 2 + 1) % 2 ^ w) := by
  rw [holdVector_eq_ofNat, ← or_one_eq, BitVec.toNat_or, BitVec.toNat_setWidth, BitVec.toNat_ofNat,
    Nat.or_mod_two_pow]

/-- A field of a word, cut out of it, is the number above its place. -/
theorem extractLsb'_eq_ofNat (v : Word) (start len : Nat) :
    v.extractLsb' start len = BitVec.ofNat len (v.toNat / 2 ^ start) := by
  apply BitVec.eq_of_toNat_eq
  rw [toNat_extractLsb'_eq, BitVec.toNat_ofNat]

/-- Settles O50: the four writable registers, each with what it takes of the word. -/
theorem csrWrWritesTheConfiguration : Obligations.CsrWrWritesTheConfiguration := by
  intro s v hr
  refine ⟨answersAs_csrWr hr rfl rfl, ?seed, ?taps, ?busfmt⟩
  case seed =>
    rw [← holdVector_word]
    exact answersAs_csrWr hr rfl rfl
  case taps =>
    rw [← holdVector_word_or_one]
    exact answersAs_csrWr hr rfl rfl
  case busfmt =>
    have hopc : v.extractLsb' 4 4 = BitVec.ofNat 4 (v.toNat / 16) := extractLsb'_eq_ofNat v 4 4
    have hhwaddr : v.extractLsb' 1 3 = BitVec.ofNat 3 (v.toNat / 2) := extractLsb'_eq_ofNat v 1 3
    rw [← hopc, ← hhwaddr]
    exact answersAs_csrWr hr rfl rfl

/-! ### The checks of INIT as arithmetic (R245; 30_encoding.md R109) -/

theorem buscfgReservedSet_eq_false {b : Word} (h16 : b.toNat / 65536 = 0) (h3 : b.toNat / 8 % 32 = 0) :
    buscfgReservedSet b = false := by
  rw [← Bool.not_eq_true, buscfgReservedSet_iff]
  omega

theorem modeSupported_eq (p : Params) (b : Word) :
    modeSupported p b = p.supportedModes.getLsbD (b.toNat % 4) := by
  rw [modeSupported, toNat_extractLsb'_eq, pow_zero, Nat.div_one]
  rfl

theorem speedSupported_iff (p : Params) (m : Word) :
    speedSupported p m = true ↔ p.speedMin ≤ m.toNat ∧ m.toNat ≤ p.speedMax := by
  rw [speedSupported, Bool.and_eq_true, decide_eq_true_eq, decide_eq_true_eq]

theorem wordSizeOk_iff (b : Word) : wordSizeOk b = true ↔ b.toNat / 256 % 256 = 8 := by
  rw [wordSizeOk, beq_iff_eq, ← BitVec.toNat_inj, toNat_extractLsb'_eq]
  rfl

/-- WARN is set where EXTRA_FLAGS is not the default, 0 (R247). -/
theorem warnExtraFlags_eq (x : Word) (s : State) :
    warnExtraFlags x s = { s with warn := s.warn || decide (x ≠ 0#32) } := by
  have hx : (x != Config.extraFlagsDefault) = decide (x ≠ 0#32) :=
    Bool.eq_iff_iff.mpr (bne_iff_ne.trans decide_eq_true_iff.symm)
  rw [warnExtraFlags, hx]

/-! ### INIT (R243 to R249) -/

/-- The four checks in their order, each as the arithmetic that R245 gives it. -/
theorem validateBus_eq (b m : Word) (s : State) : validateBus b m s =
    if s.params.supportedModes.getLsbD (b.toNat % 4) = true then
      if s.params.speedMin ≤ m.toNat ∧ m.toNat ≤ s.params.speedMax then
        if b.getLsbD 2 = false then
          if b.toNat / 256 % 256 = 8 then respond .empty { s with ready := true }
          else raise .configWordSize s
        else raise .configBitOrder s
      else raise .configSpeed s
    else raise .configMode s := by
  simp only [validateBus, ← Bool.not_eq_true, Bool.not_eq_true', ite_not, modeSupported_eq, speedSupported_iff,
    lsbFirst, wordSizeOk_iff]

/-- INIT of an unvalidated bus with the reserved bits clear sets WARN if due, then makes its four checks. -/
theorem exec_init_of_not_ready {b : Word} {s : State} (hr : s.ready = false) (h16 : b.toNat / 65536 = 0)
    (h3 : b.toNat / 8 % 32 = 0) (m x : Word) : exec (.init b m x) s =
      .next (validateBus b m { s with warn := s.warn || decide (x ≠ 0#32) }) := by
  have hb := buscfgReservedSet_eq_false h16 h3
  have h : initBus b m x s = validateBus b m (warnExtraFlags x s) := by
    rw [initBus, hb, hr, if_neg Bool.false_ne_true, if_neg Bool.false_ne_true]
  rw [← warnExtraFlags_eq, ← h]
  rfl

/-- Settles O52: all four checks pass. -/
theorem initSucceedsOnASupportedBus : Obligations.InitSucceedsOnASupportedBus := by
  intro s b m x hr h16 h3 hmode hmin hmax horder hsize
  rw [exec_init_of_not_ready hr h16 h3, validateBus_eq, if_pos hmode, if_pos ⟨hmin, hmax⟩, if_pos horder,
    if_pos hsize]
  rfl

/-- Settles O53: one case per check, those before it passing. -/
theorem initReportsTheFirstFailingCheck : Obligations.InitReportsTheFirstFailingCheck := by
  intro s b m x hr h16 h3 w modeOk speedOk orderOk
  rw [exec_init_of_not_ready hr h16 h3, validateBus_eq]
  refine ⟨?mode, ?speed, ?bitOrder, ?wordSize⟩
  case mode =>
    intro hmode
    rw [if_neg hmode]
    rfl
  case speed =>
    rintro ⟨hmode, hspeed⟩
    rw [if_pos hmode, if_neg hspeed]
    rfl
  case bitOrder =>
    rintro ⟨hmode, hspeed, horder⟩
    rw [if_pos hmode, if_pos hspeed, if_neg horder]
    rfl
  case wordSize =>
    rintro ⟨hmode, hspeed, horder, hsize⟩
    rw [if_pos hmode, if_pos hspeed, if_pos horder, if_neg hsize]
    rfl

/-- Settles O54: READY is looked at after the reserved bits and before WARN and the four checks. -/
theorem initWhileReadyIsRefused : Obligations.InitWhileReadyIsRefused := by
  intro s b m x hr h16 h3
  have hb := buscfgReservedSet_eq_false h16 h3
  have h : initBus b m x s = raise .stateAlready s := by
    rw [initBus, hb, if_neg Bool.false_ne_true, if_pos hr]
  exact congrArg Host.Outcome.next h

end Sys2Proof.Proofs
end

section
/-! PROOF. The exceptions family (60_exceptions.md R287): an error entry over a state that differs in WARN after
CONFIG, or in PECR after a PEC mismatch, is precise; and the errors of R287 are all such entries. -/

namespace Sys2Proof.Proofs

open Sys2Proof.Machine Sys2Proof.Laws

/-! ### Precise errors -/

/-- The answers R287 speaks of: CONFIG, ILLEGAL, STATE, or PEC from a command other than EXEC. -/
def ClaimsPrecision (i : Instr) (r : Response) : Prop :=
  r.err = 1#4 ∨ r.err = 5#4 ∨ r.err = 6#4 ∨ (r.err = 3#4 ∧ i ≠ .exec)

/-- What O59 asks of the state `t` after a command from `s` that is answered with `r`. -/
def PreciseAfter (s t : State) (r : Response) : Prop :=
  t = { s with
    err := r.err, esub := r.esub
    warn := if r.err = 1#4 then t.warn else s.warn
    pecr := if r.err = 3#4 then t.pecr else s.pecr
    host := { s.host with response := some r } }

theorem ClaimsPrecision.err_ne_zero {i : Instr} {r : Response} (h : ClaimsPrecision i r) : r.err ≠ 0#4 := by
  rcases h with h | h | h | ⟨h, -⟩ <;> rw [h] <;> decide

/-- A success is none of the answers of R287. -/
theorem not_claimsPrecision_of_respond {i : Instr} {s : State} {p : Payload} {r : Response}
    (hr : (respond p s).host.response = some r) : ¬ ClaimsPrecision i r := by
  cases hr
  exact fun h => h.err_ne_zero rfl

/-- An error entry is precise where WARN has changed under CONFIG only and PECR under PEC only. -/
theorem preciseAfter_raise {e : ErrorKind} {s : State} {r : Response} {w : Bool} {p : PecReg}
    (hw : e.code ≠ 1#4 → w = s.warn) (hp : e.code ≠ 3#4 → p = s.pecr)
    (hr : (raise e { s with warn := w, pecr := p }).host.response = some r) :
    PreciseAfter s (raise e { s with warn := w, pecr := p }) r := by
  cases hr
  have hwarn : (if e.code = 1#4 then w else s.warn) = w := ite_eq_left_iff.mpr fun h => (hw h).symm
  have hpecr : (if e.code = 3#4 then p else s.pecr) = p := ite_eq_left_iff.mpr fun h => (hp h).symm
  simp only [PreciseAfter, raise, hwarn, hpecr]

/-! ### INIT (43_host_control.md R244 to R249) -/

/-- The errors of the four checks of INIT are those of CONFIG. -/
theorem validateBus_cases (b m : Word) (s : State) :
    (∃ e, e.code = 1#4 ∧ validateBus b m s = raise e s) ∨
      validateBus b m s = respond .empty { s with ready := true } := by
  rw [validateBus_eq]
  split
  · split
    · split
      · split
        · exact .inr rfl
        · exact .inl ⟨.configWordSize, rfl, rfl⟩
      · exact .inl ⟨.configBitOrder, rfl, rfl⟩
    · exact .inl ⟨.configSpeed, rfl, rfl⟩
  · exact .inl ⟨.configMode, rfl, rfl⟩

/-- INIT refuses before it touches WARN, or goes on to its four checks. -/
theorem initBus_refuses_or_validates (b m x : Word) (s : State) :
    (∃ e, initBus b m x s = raise e s) ∨ initBus b m x s = validateBus b m (warnExtraFlags x s) := by
  unfold initBus
  split
  · exact .inl ⟨_, rfl⟩
  · split
    · exact .inl ⟨_, rfl⟩
    · exact .inr rfl

/-- INIT is precise: WARN is set only where the error, if any, is CONFIG. -/
theorem preciseAfter_initBus {i : Instr} {b m x : Word} {s : State} {r : Response}
    (hr : (initBus b m x s).host.response = some r) (hc : ClaimsPrecision i r) :
    PreciseAfter s (initBus b m x s) r := by
  rcases initBus_refuses_or_validates b m x s with ⟨e, h⟩ | h
  · rw [h] at hr ⊢
    exact preciseAfter_raise (fun _ => rfl) (fun _ => rfl) hr
  · rcases validateBus_cases b m (warnExtraFlags x s) with ⟨e, he, hv⟩ | hv
    · rw [h, hv] at hr ⊢
      exact preciseAfter_raise (absurd he) (fun _ => rfl) hr
    · rw [h, hv] at hr
      exact absurd hc (not_claimsPrecision_of_respond hr)

/-! ### EXEC (42_batcher.md R205, R216) -/

/-- The one error of EXEC that R287 speaks of is its refusal: the aborts are FRAMING, PEC and TRANSPORT. -/
theorem preciseAfter_execExec {s t : State} {r : Response} (h : execExec s = .next t)
    (hr : t.host.response = some r) (hc : ClaimsPrecision .exec r) : PreciseAfter s t r := by
  cases execExec_next h with
  | refused _ ht =>
    subst ht
    exact preciseAfter_raise (fun _ => rfl) (fun _ => rfl) hr
  | waits _ _ _ _ _ hn => cases hn.symm.trans hr
  | aborts _ e he ha =>
    cases ha.response.symm.trans hr
    rcases he with rfl | rfl | rfl | rfl <;> simp [ClaimsPrecision, ErrorKind.code] at hc
  | completes _ _ _ _ _ _ ht =>
    cases ht.symm.trans hr
    exact absurd rfl hc.err_ne_zero

/-! ### The statement -/

/-- Settles O59: every way a command ends is an error entry over the state before, WARN and PECR apart where
R287 says so, or a success, or an abort of EXEC. -/
theorem errorsArePrecise : Obligations.ErrorsArePrecise := by
  intro i s t r hi h hr hc
  show PreciseAfter s t r
  cases exec_command_next hi h with
  | refused e ht =>
    subst ht
    exact preciseAfter_raise (fun _ => rfl) (fun _ => rfl) hr
  | mismatches l ht =>
    subst ht
    exact preciseAfter_raise (fun _ => rfl) (absurd rfl) hr
  | rejectsBus | validatesBus =>
    obtain rfl := Host.Outcome.next.inj h
    exact preciseAfter_initBus hr hc
  | batches hx => exact preciseAfter_execExec hx hr hc
  | reads _ ht | resets ht | configures _ _ _ ht | clearsRecord ht | pushes _ _ _ _ _ ht | clearsQueue ht
  | computes _ _ ht =>
    subst ht
    exact absurd hc (not_claimsPrecision_of_respond hr)

end Sys2Proof.Proofs
end

section
/-! PROOF. The reset family (70_reset_and_hazards.md R310, R325): where a hardware reset lands, and that it leaves the
block as RESET does, the command port apart. -/

namespace Sys2Proof.Proofs

open Sys2Proof.Machine Sys2Proof.Laws

/-- A hardware reset that is the next input lands, wherever the machine stands (R310). -/
theorem resetLands_of_head {s : State} {rest : List HostInput}
    (hq : s.host.pending = .hardwareReset :: rest) : s.resetLands = some rest := by
  cases hp : s.phase with
  | transfer =>
    rw [State.resetLands, hp, hq]
    exact withoutReset_append [] rest
  | idle | encode | parse => simp only [State.resetLands, hp, hq]

/-- In a transfer that is not answered, the first hardware reset lands past the commands that wait before it
(R325). -/
theorem resetLands_of_transfer {s : State} {waiting : List Message} {rest : List HostInput}
    (hp : s.phase = .transfer) (hq : s.host.pending = waiting.map .command ++ .hardwareReset :: rest) :
    s.resetLands = some (waiting.map .command ++ rest) := by
  rw [State.resetLands, hp, hq]
  exact withoutReset_append waiting rest

/-- RESET and a hardware reset load the same values: they differ only in the command port, where RESET answers
and a hardware reset takes its input (R310). -/
theorem exec_reset_agrees_with_hardwareReset (s : State) :
    ∃ t, exec .reset s = .next t ∧
      ∀ rest, hardwareReset rest s = { t with host := { pending := rest, response := none } } :=
  ⟨_, rfl, fun _ => rfl⟩

/-- Settles O3: a hardware reset that lands is the step (`step_of_resetLands`), one at the head of the inputs
and one in a transfer both land, and what either loads is what RESET loads. -/
theorem hardwareResetLoadsResetValues : Obligations.HardwareResetLoadsResetValues := by
  intro s
  obtain ⟨t, ht, hsame⟩ := exec_reset_agrees_with_hardwareReset s
  refine ⟨t, ht, fun rest hq => ?_, fun waiting rest hp hq => ?_⟩
  · rw [step_of_resetLands (resetLands_of_head hq), hsame]
  · rw [step_of_resetLands (resetLands_of_transfer hp hq), hsame]

end Sys2Proof.Proofs
end
